-- ==== Sys2Proof/Word.lean ====
section
/-! DEFINITION. The two kinds of value the FXU handles: a 32-bit lane and a packed vector of lanes. -/

namespace Sys2Proof

/-- One lane: 32 bits (R6). -/
abbrev Word := BitVec 32

/-- The value of a vector port with `lanes` lanes: `32 * lanes` bits (R7, R12, R19). -/
abbrev Vec (lanes : Nat) := BitVec (32 * lanes)

end Sys2Proof
end

