-- ==== Sys2Proof/Syntax.lean ====
section
/-! DEFINITION. The 25 operations of the FXU, one constructor per row of the opcode table (R49). -/

namespace Sys2Proof

/-- An operation. It names no operand: every operation takes its operands from the ports A, B and C (R48), and only
`POT` has an immediate (R47). -/
inductive Instr where
  /-- `AND`, bitwise AND of A and B (R59). -/
  | and
  /-- `OR`, bitwise inclusive OR of A and B (R60). -/
  | or
  /-- `XOR`, bitwise exclusive OR of A and B (R61). -/
  | xor
  /-- `NOT`, bitwise complement of A (R62). -/
  | not
  /-- `SEL`, branchless select: mask A, then B, else C (R63). -/
  | sel
  /-- `CMPEQ`, lane-wise equality mask (R64). -/
  | cmpeq
  /-- `CMPNE`, lane-wise inequality mask (R65). -/
  | cmpne
  /-- `CMPGT`, lane-wise signed greater-than mask (R66). -/
  | cmpgt
  /-- `CMPGE`, lane-wise signed greater-or-equal mask (R67). -/
  | cmpge
  /-- `CMPLT`, lane-wise signed less-than mask (R68). -/
  | cmplt
  /-- `CMPLE`, lane-wise signed less-or-equal mask (R69). -/
  | cmple
  /-- `CMPZ`, lane-wise zero test (R70). -/
  | cmpz
  /-- `CMPNZ`, lane-wise non-zero test (R71). -/
  | cmpnz
  /-- `ALL`, whether every lane is non-zero (R72). -/
  | all
  /-- `ANY`, whether some lane is non-zero (R73). -/
  | any
  /-- `ADD`, lane-wise modular addition (R76). -/
  | add
  /-- `SUB`, lane-wise modular subtraction (R77). -/
  | sub
  /-- `NEG`, lane-wise modular negation (R78). -/
  | neg
  /-- `RHADD`, lane-wise rounded half of the sum (R79). -/
  | rhadd
  /-- `QRDMULH`, lane-wise saturating rounding doubling multiply-high (R80). -/
  | qrdmulh
  /-- `QADD`, lane-wise saturating addition (R81). -/
  | qadd
  /-- `QSUB`, lane-wise saturating subtraction (R82). -/
  | qsub
  /-- `QNEG`, lane-wise saturating negation (R83). -/
  | qneg
  /-- `POT #e`, lane-wise multiplication by `2^e` (R87). The exponent is the signed reading of `IMM6` (R47). -/
  | pot (e : Int)
  /-- `DUP`, lane 0 of A in every lane (R91). -/
  | dup
deriving DecidableEq, Repr

end Sys2Proof
end

