-- ==== Sys2Proof/WellFormed.lean ====
section
/-! DEFINITION. Which instructions can be written as an operation word. -/

namespace Sys2Proof

/-- The exponents `IMM6` can hold: `-32` to `31` (R47, R53). -/
abbrev ExponentInRange (e : Int) : Prop := -32 ≤ e ∧ e ≤ 31

/-- The one check an operation needs: the exponent of `POT` is in range. An assembler "rejects an exponent outside
`[-32, 31]`" (R53); no other operation has an operand field. -/
def Instr.wellFormed : Instr → Bool
  | .and | .or | .xor | .not | .sel => true
  | .cmpeq | .cmpne | .cmpgt | .cmpge | .cmplt | .cmple | .cmpz | .cmpnz | .all | .any => true
  | .add | .sub | .neg | .rhadd | .qrdmulh | .qadd | .qsub | .qneg => true
  | .pot e => decide (ExponentInRange e)
  | .dup => true

/-- `Instr.wellFormed` as a proposition. -/
abbrev Instr.WellFormed (i : Instr) : Prop := i.wellFormed = true

end Sys2Proof
end

