-- ==== Sys2Proof/Decode.lean ====
section
/-! DEFINITION. From a 32-bit operation word to an operation or a named rejection (R44 to R57), and back (R53). -/

namespace Sys2Proof

/-- `OPC`, bits 7 to 0 of the operation word (R45). -/
def opcField (op : BitVec 32) : BitVec 8 := op.extractLsb' 0 8

/-- `IMM6`, bits 13 to 8 of the operation word (R45). -/
def imm6Field (op : BitVec 32) : BitVec 6 := op.extractLsb' 8 6

/-- `RSVD`, bits 31 to 14 of the operation word (R45). -/
def rsvdField (op : BitVec 32) : BitVec 18 := op.extractLsb' 14 18

/-- The 6-bit two's-complement reading of `IMM6` (R47): `sint6(v) = sint(sext_32(v))`. -/
def sint6 (v : BitVec 6) : Int := (v.signExtend 32).toInt

/-- What a word is (R57): a legal operation, or one of the two named rejections (R50, R51). -/
inductive Decoded where
  /-- A legal operation word. -/
  | legal (i : Instr)
  /-- `OPC` is unassigned (R51). -/
  | illegalOpcode
  /-- `OPC` is assigned and a field that must be 0 is not (R50). -/
  | reservedField
deriving DecidableEq, Repr

/-- The opcode map read by a decoder (R49): the operation an `OPC` value selects, with `e` the exponent that `POT`
takes; none where `OPC` is unassigned (R51). The match is on all 8 bits (R46). -/
def opcodeSelects (opc : BitVec 8) (e : Int) : Option Instr :=
  match opc with
  | 0x01#8 => some .and
  | 0x02#8 => some .or
  | 0x03#8 => some .xor
  | 0x04#8 => some .not
  | 0x05#8 => some .sel
  | 0x10#8 => some .cmpeq
  | 0x11#8 => some .cmpne
  | 0x12#8 => some .cmpgt
  | 0x13#8 => some .cmpge
  | 0x14#8 => some .cmplt
  | 0x15#8 => some .cmple
  | 0x16#8 => some .cmpz
  | 0x17#8 => some .cmpnz
  | 0x18#8 => some .all
  | 0x19#8 => some .any
  | 0x20#8 => some .add
  | 0x21#8 => some .sub
  | 0x22#8 => some .neg
  | 0x23#8 => some .rhadd
  | 0x24#8 => some .qrdmulh
  | 0x25#8 => some .qadd
  | 0x26#8 => some .qsub
  | 0x27#8 => some .qneg
  | 0x30#8 => some (.pot e)
  | 0x40#8 => some .dup
  | _ => none

/-- The decoder, its tests in the order of R56. It is total and reads the word alone (R57). -/
def decode (op : BitVec 32) : Decoded :=
  match opcodeSelects (opcField op) (sint6 (imm6Field op)) with
  | none => .illegalOpcode
  | some i =>
    if rsvdField op ≠ 0#18 then .reservedField
    else if opcField op ≠ 0x30#8 ∧ imm6Field op ≠ 0#6 then .reservedField
    else .legal i

/-- The opcode map read by an assembler: the `OPC` value of each operation (R49). -/
def Instr.opcode : Instr → BitVec 8
  | .and => 0x01#8
  | .or => 0x02#8
  | .xor => 0x03#8
  | .not => 0x04#8
  | .sel => 0x05#8
  | .cmpeq => 0x10#8
  | .cmpne => 0x11#8
  | .cmpgt => 0x12#8
  | .cmpge => 0x13#8
  | .cmplt => 0x14#8
  | .cmple => 0x15#8
  | .cmpz => 0x16#8
  | .cmpnz => 0x17#8
  | .all => 0x18#8
  | .any => 0x19#8
  | .add => 0x20#8
  | .sub => 0x21#8
  | .neg => 0x22#8
  | .rhadd => 0x23#8
  | .qrdmulh => 0x24#8
  | .qadd => 0x25#8
  | .qsub => 0x26#8
  | .qneg => 0x27#8
  | .pot _ => 0x30#8
  | .dup => 0x40#8

/-- The `IMM6` of an operation: "bits of e modulo 2^6" for `POT`, 0 for every other (R53). -/
def Instr.imm6 : Instr → BitVec 6
  | .and | .or | .xor | .not | .sel => 0#6
  | .cmpeq | .cmpne | .cmpgt | .cmpge | .cmplt | .cmple | .cmpz | .cmpnz | .all | .any => 0#6
  | .add | .sub | .neg | .rhadd | .qrdmulh | .qadd | .qsub | .qneg => 0#6
  | .pot e => BitVec.ofInt 6 e
  | .dup => 0#6

/-- The encoder (R53): `OP = zext_32(IMM6) << 8 | OPC`. -/
def encode (i : Instr) : BitVec 32 := i.imm6.zeroExtend 32 <<< 8 ||| i.opcode.zeroExtend 32

/-- A row of the opcode map as R49 words it: a word is the row's operation when it is `pattern` under `mask`. -/
structure OpcodeRow where
  mnemonic : String
  pattern  : BitVec 32
  mask     : BitVec 32
deriving DecidableEq, Repr

/-- The bits of a word that decide a row: all of them, but for the six of `POT`'s exponent (R49). -/
def Instr.tableMask : Instr → BitVec 32
  | .and | .or | .xor | .not | .sel => 0xFFFFFFFF#32
  | .cmpeq | .cmpne | .cmpgt | .cmpge | .cmplt | .cmple | .cmpz | .cmpnz | .all | .any => 0xFFFFFFFF#32
  | .add | .sub | .neg | .rhadd | .qrdmulh | .qadd | .qsub | .qneg => 0xFFFFFFFF#32
  | .pot _ => 0xFFFFC0FF#32
  | .dup => 0xFFFFFFFF#32

/-- The 25 rows of R49, written out from the table. -/
def opcodeRows : List OpcodeRow :=
  [⟨"AND", 0x00000001, 0xFFFFFFFF⟩, ⟨"OR", 0x00000002, 0xFFFFFFFF⟩, ⟨"XOR", 0x00000003, 0xFFFFFFFF⟩,
   ⟨"NOT", 0x00000004, 0xFFFFFFFF⟩, ⟨"SEL", 0x00000005, 0xFFFFFFFF⟩] ++
  [⟨"CMPEQ", 0x00000010, 0xFFFFFFFF⟩, ⟨"CMPNE", 0x00000011, 0xFFFFFFFF⟩, ⟨"CMPGT", 0x00000012, 0xFFFFFFFF⟩,
   ⟨"CMPGE", 0x00000013, 0xFFFFFFFF⟩, ⟨"CMPLT", 0x00000014, 0xFFFFFFFF⟩, ⟨"CMPLE", 0x00000015, 0xFFFFFFFF⟩,
   ⟨"CMPZ", 0x00000016, 0xFFFFFFFF⟩, ⟨"CMPNZ", 0x00000017, 0xFFFFFFFF⟩, ⟨"ALL", 0x00000018, 0xFFFFFFFF⟩,
   ⟨"ANY", 0x00000019, 0xFFFFFFFF⟩] ++
  [⟨"ADD", 0x00000020, 0xFFFFFFFF⟩, ⟨"SUB", 0x00000021, 0xFFFFFFFF⟩, ⟨"NEG", 0x00000022, 0xFFFFFFFF⟩,
   ⟨"RHADD", 0x00000023, 0xFFFFFFFF⟩, ⟨"QRDMULH", 0x00000024, 0xFFFFFFFF⟩, ⟨"QADD", 0x00000025, 0xFFFFFFFF⟩,
   ⟨"QSUB", 0x00000026, 0xFFFFFFFF⟩, ⟨"QNEG", 0x00000027, 0xFFFFFFFF⟩] ++
  [⟨"POT", 0x00000030, 0xFFFFC0FF⟩, ⟨"DUP", 0x00000040, 0xFFFFFFFF⟩]

/-- The five families that hold an operation, named by `OPC[7:4]` (R46). The grouping is informative: `decode` does
not use it. -/
inductive Family where
  | bitwise | compare | arithmetic | scaling | broadcast
deriving DecidableEq, Repr

/-- The family an operation belongs to (R46, the tables of `spec/INDEX.md`). -/
def Instr.family : Instr → Family
  | .and | .or | .xor | .not | .sel => .bitwise
  | .cmpeq | .cmpne | .cmpgt | .cmpge | .cmplt | .cmple | .cmpz | .cmpnz | .all | .any => .compare
  | .add | .sub | .neg | .rhadd | .qrdmulh | .qadd | .qsub | .qneg => .arithmetic
  | .pot _ => .scaling
  | .dup => .broadcast

/-- The value of `OPC[7:4]` that names a family (R46). -/
def Family.nibble : Family → BitVec 4
  | .bitwise => 0x0#4
  | .compare => 0x1#4
  | .arithmetic => 0x2#4
  | .scaling => 0x3#4
  | .broadcast => 0x4#4

/-- The instruction the decoder reads from a word of the opcode table: an operation word is one 32-bit word (R44),
taken in parallel from `in_op`, so bit 0 of the table is bit 0 of the word; none where the decoder rejects it.
Bits at or above `nbits` are 0 (notes/assumptions/11). -/
def decodeTableWord (nbits w : Nat) : Option Instr :=
  match decode (BitVec.ofNat 32 (w % 2 ^ nbits)) with
  | .legal i => some i
  | .illegalOpcode | .reservedField => none

end Sys2Proof
end

