-- ==== Sys2Proof/Config.lean ====
section
/-! DEFINITION. What is fixed when the unit is built (R32), and the values the spec leaves unspecified. -/

namespace Sys2Proof.Config

/-- `LANES`: this hardware has 4 (R7). The meanings of the operations take the lane count as an argument,
so that the scalar configuration (`LANES = 1`, R8) is the same text. -/
abbrev lanes : Nat := 4

/-- `LATENCY`: an OPEN parameter, an integer of at least 0 (R9, U10). It has no body: nothing can be proved about
its value. DESIGN CHOICE (notes/assumptions/5), safe. -/
opaque latency : Nat

/-- What `out_y` carries in a cycle whose value the spec leaves unspecified (R27, R108, R111, U6, U7), one value
for each value of the counter `State.freeIndex`. DESIGN CHOICE (notes/assumptions/4), safe. -/
opaque freeY : Nat → Vec lanes

/-- What `out_t` carries in such a cycle (R27, U6). DESIGN CHOICE (notes/assumptions/4), safe. -/
opaque freeT : Nat → Bool

/-- What `out_status` carries in such a cycle (R27, U6). DESIGN CHOICE (notes/assumptions/4), safe. -/
opaque freeStatus : Nat → BitVec 2

/-- What `in_ready` carries before the first reset (R111, U7). DESIGN CHOICE (notes/assumptions/6). -/
opaque freeInReady : Nat → Bool

/-- What `out_valid` carries before the first reset (R111, U7). DESIGN CHOICE (notes/assumptions/6). -/
opaque freeOutValid : Nat → Bool

end Sys2Proof.Config
end

