-- ==== Sys2Proof/Machine/State.lean ====
section
/-! DEFINITION. The state of the unit, as plain data: its ports and its pipeline (R19, R28), and the host's drive. -/

namespace Sys2Proof.Machine

/-- The statuses an operation can have (R93). The fourth code of the 2-bit port is never produced, and no constructor
stands for it. -/
inductive Status where
  /-- `OK`: a legal operation word. -/
  | ok
  /-- `ILLEGAL_OPCODE`: `OPC` is unassigned. -/
  | illegalOpcode
  /-- `RESERVED_FIELD`: `OPC` is assigned and a field that must be 0 is not. -/
  | reservedField
deriving DecidableEq, Repr

/-- The three operand vectors accepted with an operation (R15, R19). -/
structure Operands (lanes : Nat) where
  a : Vec lanes
  b : Vec lanes
  c : Vec lanes
deriving DecidableEq, Repr

/-- The result `(S, Y, T)` of one operation (R20). -/
structure Result (lanes : Nat) where
  s : Status
  y : Vec lanes
  t : Bool
deriving DecidableEq, Repr

/-- An operation accepted and not yet presented (R28): its result, and its age, which is the number of rising edges
since the edge that accepted it. -/
structure Entry where
  result : Result Config.lanes
  age    : Nat
deriving DecidableEq, Repr

/-- The levels on the input ports at one rising edge (R19). -/
structure Pins where
  rst     : Bool
  inValid : Bool
  inOp    : BitVec 32
  inA     : Vec Config.lanes
  inB     : Vec Config.lanes
  inC     : Vec Config.lanes
deriving DecidableEq, Repr

/-- The unit between two rising edges of `clk`, with what its host drives. It has no register file, program counter,
flag, special register or memory (R17, R18, R21, R22, R30, R31). -/
structure State where
  /-- The levels on the input ports that the next rising edge samples (R19, R23). -/
  pins      : Pins
  /-- The host's, not the unit's: the levels it drives for the edges after that one, in order (notes/assumptions/1). -/
  host      : List Pins
  /-- Whether `rst` has been sampled 1 since power-up (R111). -/
  resetSeen : Bool
  /-- The port `in_ready` in this cycle (R24). -/
  inReady   : Bool
  /-- The operations in flight, oldest first (R28). -/
  pipeline  : List Entry
  /-- The port `out_valid` in this cycle (R25). -/
  outValid  : Bool
  /-- The port `out_y` in this cycle; a free value while `outValid` is false (R27). -/
  outY      : Vec Config.lanes
  /-- The port `out_t` in this cycle; a free value while `outValid` is false (R27). -/
  outT      : Bool
  /-- The port `out_status` in this cycle; a free value while `outValid` is false (R27). -/
  outStatus : BitVec 2
  /-- The model's own: the results presented so far, oldest first (R117, U12; notes/assumptions/7). -/
  trace     : List (Result Config.lanes)
  /-- The model's own: where the next free values are taken (notes/assumptions/4). -/
  freeIndex : Nat
deriving DecidableEq, Repr

/-- The reasons the unit can stop: none. "Every failure is precise: it is attached to the one operation that caused
it" (R97), and a word that does not decode completes with a status (R95). Nothing raises a fault; that is safe. -/
inductive Fault where
deriving DecidableEq, Repr

/-- The reasons the model can refuse. -/
inductive Refusal where
  /-- Raised only by an arm of `exec` for an instruction that has no meaning yet. Safe. No arm raises it now: every
  instruction has its meaning. -/
  | notModelled (mnemonic : String)
deriving DecidableEq, Repr

/-- What a step or a meaning answers. -/
abbrev Answer := Host.Outcome State Fault Refusal

/-- A host that offers nothing and drives 0 everywhere. DESIGN CHOICE (notes/assumptions/3). -/
def Pins.idle : Pins :=
  { rst := false, inValid := false, inOp := 0#32, inA := 0#_, inB := 0#_, inC := 0#_ }

/-- The unit right after reset: the cycle that begins at the first edge at which `rst` is sampled 0 after a reset
(R110). `in_ready` is 1, the pipeline is empty, `out_valid` is 0, and the other outputs are unspecified (R108).
The host drives nothing (notes/assumptions/3). -/
def State.reset : State where
  pins      := Pins.idle
  host      := []
  resetSeen := true
  inReady   := true
  pipeline  := []
  outValid  := false
  outY      := Config.freeY 0
  outT      := Config.freeT 0
  outStatus := Config.freeStatus 0
  trace     := []
  freeIndex := 1

/-- The unit at power-up, before any reset: every output is unspecified, `in_ready` and `out_valid` among them (R111,
U7; notes/assumptions/6). -/
def State.powerUp : State :=
  { State.reset with
    resetSeen := false
    inReady   := Config.freeInReady 0
    outValid  := Config.freeOutValid 0 }

end Sys2Proof.Machine
end

