-- ==== Sys2Proof/Machine/Ops.lean ====
section
/-! DEFINITION. The notation of the rules (lanes, integers, masks; R11 to R16) and the named operations over the
state: accepting, ageing, presenting, resetting, and `raise IllegalOperation`. -/

namespace Sys2Proof.Machine

/-! ### Lanes (R12) -/

/-- `lane(V, i) = V[32*i+31 : 32*i]` (R12). -/
def lane {n : Nat} (v : Vec n) (i : Nat) : Word := v.extractLsb' (32 * i) 32

/-- The vector of `n` lanes whose lane `i` is `f i`: what "for each lane i: lane(Y, i) <- f i" writes (R12). -/
def ofLanes : (n : Nat) → (Nat → Word) → Vec n
  | 0, _ => 0#_
  | n + 1, f => ((f n).setWidth (32 * (n + 1)) <<< (32 * n)) ||| (ofLanes n f).setWidth (32 * (n + 1))

/-- `bcast(v)`: the vector whose every lane is `v` (R14). -/
def bcast {n : Nat} (v : Word) : Vec n := ofLanes n fun _ => v

/-- Lane by lane from one operand, with no lane reading another (R12). -/
def map1 {n : Nat} (f : Word → Word) (a : Vec n) : Vec n := ofLanes n fun i => f (lane a i)

/-- Lane by lane from two operands, with no lane reading another (R12). -/
def map2 {n : Nat} (f : Word → Word → Word) (a b : Vec n) : Vec n := ofLanes n fun i => f (lane a i) (lane b i)

/-! ### Integers and constants (R13, R14) -/

/-- `sint(v)`: the two's-complement value (R13). -/
def sint (v : Word) : Int := v.toInt

/-- `bits32(n)`: the 32-bit pattern of `n` modulo `2^32` (R13). -/
def bits32 (n : Int) : Word := BitVec.ofInt 32 n

/-- `clamp(n) = min(max(n, -2^31), 2^31 - 1)` (R13). -/
def clamp (n : Int) : Int := min (max n (-2 ^ 31)) (2 ^ 31 - 1)

/-- `MIN32` (R14). -/
def min32 : Word := 0x80000000#32
/-- `MAX32` (R14). -/
def max32 : Word := 0x7FFFFFFF#32
/-- `ONES` (R14). -/
def onesWord : Word := 0xFFFFFFFF#32
/-- `ZERO` (R14). -/
def zeroWord : Word := 0x00000000#32

/-! ### Accepting an operation (R23, R28) -/

/-- An operation joins the pipeline: its result goes in behind the older ones, at age 0 (R23, R28). -/
def State.deliver (s : State) (r : Result Config.lanes) : State :=
  { s with pipeline := s.pipeline ++ [⟨r, 0⟩] }

/-- What every meaning ends in: the accepted operation's result joins the pipeline and nothing else changes
(R21, R23, R29). -/
def complete (s : State) (r : Result Config.lanes) : Answer := .next (s.deliver r)

/-- The result of a word that fails decoding: `S <- code`, `Y <- bcast(ZERO)`, `T <- 0` (R95). -/
def illegalResult {n : Nat} (code : Status) : Result n := ⟨code, bcast zeroWord, false⟩

/-- `raise IllegalOperation(code)` (R95). This is the unit's only exceptional outcome: no trap is taken, no state is
saved and no operand is read; the operation is accepted and completes as a legal one does. There is no return from
it (R97, R98). -/
def raiseIllegalOperation (code : Status) (s : State) : Answer := complete s (illegalResult code)

/-! ### The clock edge (R24 to R27, R107 to R111) -/

/-- An entry one edge later. -/
def Entry.older (e : Entry) : Entry := { e with age := e.age + 1 }

/-- A rising edge passes: every operation in flight is one edge older (R25, R28). -/
def State.tick (s : State) : State := { s with pipeline := s.pipeline.map Entry.older }

/-- The levels when the host has nothing further to offer: the offer and the reset are withdrawn and the other wires
hold. DESIGN CHOICE (notes/assumptions/1). -/
def Pins.withdrawn (p : Pins) : Pins := { p with rst := false, inValid := false }

/-- The host drives its next levels. -/
def State.nextPins (s : State) : State :=
  match s.host with
  | [] => { s with pins := s.pins.withdrawn }
  | p :: rest => { s with pins := p, host := rest }

/-- The code of a status on the 2-bit port `out_status` (R93). -/
def Status.code : Status → BitVec 2
  | .ok => 0b00#2
  | .illegalOpcode => 0b01#2
  | .reservedField => 0b10#2

/-- A cycle whose `out_y`, `out_t` and `out_status` are unspecified (R27): they carry the next free values. -/
def State.driveUnspecified (s : State) (valid : Bool) : State :=
  { s with
    outValid  := valid
    outY      := Config.freeY s.freeIndex
    outT      := Config.freeT s.freeIndex
    outStatus := Config.freeStatus s.freeIndex
    freeIndex := s.freeIndex + 1 }

/-- A cycle that presents the result `r` (R25). -/
def State.driveResult (s : State) (r : Result Config.lanes) : State :=
  { s with
    outValid  := true
    outY      := r.y
    outT      := r.t
    outStatus := r.s.code
    trace     := s.trace ++ [r] }

/-- The outputs of the cycle that begins at this edge: the oldest operation's result if it was accepted `lat` edges
ago, which leaves the pipeline; otherwise nothing (R25, R26, R27). -/
def State.present (lat : Nat) (s : State) : State :=
  match s.pipeline with
  | [] => s.driveUnspecified false
  | e :: rest =>
    if e.age = lat then { s with pipeline := rest }.driveResult e.result else s.driveUnspecified false

/-- The end of an edge at which `rst` was sampled 0: present what is due, and be ready (R24, R25). -/
def State.finishEdge (lat : Nat) (s : State) : State :=
  { s.present lat with inReady := true }.nextPins

/-- An edge at which `rst` is sampled 1: the pipeline is emptied, `in_ready` and `out_valid` go to 0, the other outputs
are unspecified, and nothing is accepted (R23, R24, R108, R109). -/
def State.resetEdge (s : State) : State :=
  ({ s with resetSeen := true, inReady := false, pipeline := [] }.driveUnspecified false).nextPins

/-- An edge before the first reset at which `rst` is sampled 0: every output is unspecified (R111, U7). No offer is
taken to be accepted; whatever the hardware does with one shows only on outputs that are free here
(notes/assumptions/6). -/
def State.powerUpEdge (s : State) : State :=
  ({ s with inReady := Config.freeInReady s.freeIndex }.driveUnspecified
    (Config.freeOutValid s.freeIndex)).nextPins

/-! ### What a host sees and does -/

/-- The result a host that keeps its duties captures from the outputs (R115): it reads `out_status`, `out_y` and
`out_t` only while `out_valid` is 1. -/
def State.capture (s : State) : Option (BitVec 2 × Vec Config.lanes × Bool) :=
  if s.outValid then some (s.outStatus, s.outY, s.outT) else none

/-- The results of the operations in flight, oldest first: the FIFO `P` of the time-free view (R118). -/
def State.pending (s : State) : List (Result Config.lanes) := s.pipeline.map Entry.result

/-- The host puts the word `op` on `in_op` and offers it at the next edge, to a unit that can accept it; the operand
ports keep their levels (notes/assumptions/10). -/
def State.offer (s : State) (op : BitVec 32) : State :=
  { s with
    pins      := { s.pins with rst := false, inValid := true, inOp := op }
    resetSeen := true
    inReady   := true }

end Sys2Proof.Machine
end

