-- ==== Sys2Proof/Machine/Flags.lean ====
section
/-! DEFINITION. The masks, the boolean `T` and the status `S` (R14, R16, R74, R93). The unit has no flags (R21): these
are parts of one operation's result. -/

namespace Sys2Proof.Machine

/-- `mask(b)`: `ONES` if `b`, `ZERO` otherwise (R14). -/
def mask (b : Bool) : Word := if b then onesWord else zeroWord

/-- A mask lane (R16). -/
abbrev IsMaskLane (w : Word) : Prop := w = onesWord ∨ w = zeroWord

/-- A mask: a vector whose every lane is a mask lane (R16). -/
abbrev IsMask {n : Nat} (v : Vec n) : Prop := ∀ i, i < n → IsMaskLane (lane v i)

/-- The result of a legal operation that has no boolean: status `OK` and `T = 0` (R58, R74). -/
def vectorResult {n : Nat} (y : Vec n) : Result n := ⟨.ok, y, false⟩

/-- The result of a reduction: its boolean on `T`, and in `Y` the boolean's broadcast mask (R74). -/
def booleanResult {n : Nat} (t : Bool) : Result n := ⟨.ok, bcast (mask t), t⟩

end Sys2Proof.Machine
end

