-- ==== Sys2Proof/Machine/Operands.lean ====
section
/-! DEFINITION. Where an operation's operands come from and which it reads (R19, R48). -/

namespace Sys2Proof.Machine

/-- The operand vectors on the ports, sampled at the accepting edge (R15, R23, D26). -/
def Pins.operands (p : Pins) : Operands Config.lanes := ⟨p.inA, p.inB, p.inC⟩

/-- The operand vectors the next edge samples. -/
def State.operands (s : State) : Operands Config.lanes := s.pins.operands

/-- An operand port (R19). -/
inductive Port where
  | a | b | c
deriving DecidableEq, Repr

/-- What a port carries. -/
def Operands.port {n : Nat} (o : Operands n) : Port → Vec n
  | .a => o.a
  | .b => o.b
  | .c => o.c

/-- The ports an operation reads (R48, the "reads" column of R49). `DUP` reads only lane 0 of A. -/
def reads : Instr → List Port
  | .and | .or | .xor => [.a, .b]
  | .not => [.a]
  | .sel => [.a, .b, .c]
  | .cmpeq | .cmpne | .cmpgt | .cmpge | .cmplt | .cmple => [.a, .b]
  | .cmpz | .cmpnz | .all | .any => [.a]
  | .add | .sub | .rhadd | .qrdmulh | .qadd | .qsub => [.a, .b]
  | .neg | .qneg => [.a]
  | .pot _ => [.a]
  | .dup => [.a]

/-- One lane of every operand, as the operands of the scalar configuration (R8). -/
def Operands.laneOnly {n : Nat} (o : Operands n) (k : Nat) : Operands 1 :=
  ⟨ofLanes 1 fun _ => lane o.a k, ofLanes 1 fun _ => lane o.b k, ofLanes 1 fun _ => lane o.c k⟩

/-- The operations that act on each lane independently (R12): all but the two reductions (R72, R73), which read every
lane, and `DUP`, which reads lane 0 (R91). -/
def laneWise : Instr → Bool
  | .and | .or | .xor | .not | .sel => true
  | .cmpeq | .cmpne | .cmpgt | .cmpge | .cmplt | .cmple | .cmpz | .cmpnz => true
  | .all | .any => false
  | .add | .sub | .neg | .rhadd | .qrdmulh | .qadd | .qsub | .qneg => true
  | .pot _ => true
  | .dup => false

end Sys2Proof.Machine
end

