-- ==== Sys2Proof/Machine/Arith.lean ====
section
/-! DEFINITION. Arithmetic (`spec/42_arith.md`, R76 to R83). Every lane is computed on exact integers and reduced to
32 bits once, at the end (R13, R84). -/

namespace Sys2Proof.Machine

/-- `bits32(a + b)`: wraps (R76). -/
def addLane (a b : Word) : Word := bits32 (sint a + sint b)
/-- `bits32(a - b)`: wraps (R77). -/
def subLane (a b : Word) : Word := bits32 (sint a - sint b)
/-- `bits32(-a)`: wraps (R78). -/
def negLane (a : Word) : Word := bits32 (-sint a)
/-- `bits32(floor((a + b + 1) / 2))`: ties toward plus infinity (R79). `Int` division by 2 is the floor. -/
def rhaddLane (a b : Word) : Word := bits32 ((sint a + sint b + 1) / 2)
/-- `MAX32` at the one saturation corner, else `bits32(floor((2*a*b + 2^31) / 2^32))` (R80). -/
def qrdmulhLane (a b : Word) : Word :=
  if a = min32 ∧ b = min32 then max32 else bits32 ((2 * sint a * sint b + 2 ^ 31) / 2 ^ 32)
/-- `bits32(clamp(a + b))` (R81). -/
def qaddLane (a b : Word) : Word := bits32 (clamp (sint a + sint b))
/-- `bits32(clamp(a - b))` (R82). -/
def qsubLane (a b : Word) : Word := bits32 (clamp (sint a - sint b))
/-- `bits32(clamp(-a))` (R83). -/
def qnegLane (a : Word) : Word := bits32 (clamp (-sint a))

/-- `ADD` (R76). -/
def addResult {n : Nat} (o : Operands n) : Result n := vectorResult (map2 addLane o.a o.b)
/-- `SUB` (R77). -/
def subResult {n : Nat} (o : Operands n) : Result n := vectorResult (map2 subLane o.a o.b)
/-- `NEG` (R78). -/
def negResult {n : Nat} (o : Operands n) : Result n := vectorResult (map1 negLane o.a)
/-- `RHADD` (R79). -/
def rhaddResult {n : Nat} (o : Operands n) : Result n := vectorResult (map2 rhaddLane o.a o.b)
/-- `QRDMULH` (R80). -/
def qrdmulhResult {n : Nat} (o : Operands n) : Result n := vectorResult (map2 qrdmulhLane o.a o.b)
/-- `QADD` (R81). -/
def qaddResult {n : Nat} (o : Operands n) : Result n := vectorResult (map2 qaddLane o.a o.b)
/-- `QSUB` (R82). -/
def qsubResult {n : Nat} (o : Operands n) : Result n := vectorResult (map2 qsubLane o.a o.b)
/-- `QNEG` (R83). -/
def qnegResult {n : Nat} (o : Operands n) : Result n := vectorResult (map1 qnegLane o.a)

/-- The meaning of `ADD` (R76). -/
def execAdd (s : State) : Answer := complete s (addResult s.operands)
/-- The meaning of `SUB` (R77). -/
def execSub (s : State) : Answer := complete s (subResult s.operands)
/-- The meaning of `NEG` (R78). -/
def execNeg (s : State) : Answer := complete s (negResult s.operands)
/-- The meaning of `RHADD` (R79). -/
def execRhadd (s : State) : Answer := complete s (rhaddResult s.operands)
/-- The meaning of `QRDMULH` (R80). -/
def execQrdmulh (s : State) : Answer := complete s (qrdmulhResult s.operands)
/-- The meaning of `QADD` (R81). -/
def execQadd (s : State) : Answer := complete s (qaddResult s.operands)
/-- The meaning of `QSUB` (R82). -/
def execQsub (s : State) : Answer := complete s (qsubResult s.operands)
/-- The meaning of `QNEG` (R83). -/
def execQneg (s : State) : Answer := complete s (qnegResult s.operands)

end Sys2Proof.Machine
end

