-- ==== Sys2Proof/Machine/Bitwise.lean ====
section
/-! DEFINITION. Bitwise logic and select (`spec/40_bitwise_select.md`, R59 to R63), written on the whole vector. -/

namespace Sys2Proof.Machine

/-- `AND`: `Y <- A & B` (R59). -/
def andResult {n : Nat} (o : Operands n) : Result n := vectorResult (o.a &&& o.b)

/-- `OR`: `Y <- A | B` (R60). -/
def orResult {n : Nat} (o : Operands n) : Result n := vectorResult (o.a ||| o.b)

/-- `XOR`: `Y <- A ^ B` (R61). -/
def xorResult {n : Nat} (o : Operands n) : Result n := vectorResult (o.a ^^^ o.b)

/-- `NOT`: `Y <- ~A` (R62). -/
def notResult {n : Nat} (o : Operands n) : Result n := vectorResult (~~~o.a)

/-- `SEL`: `Y <- (A & B) | (~A & C)` on every bit of every operand, mask or not (R63, U1). -/
def selResult {n : Nat} (o : Operands n) : Result n := vectorResult ((o.a &&& o.b) ||| (~~~o.a &&& o.c))

/-- The meaning of `AND` (R59). -/
def execAnd (s : State) : Answer := complete s (andResult s.operands)
/-- The meaning of `OR` (R60). -/
def execOr (s : State) : Answer := complete s (orResult s.operands)
/-- The meaning of `XOR` (R61). -/
def execXor (s : State) : Answer := complete s (xorResult s.operands)
/-- The meaning of `NOT` (R62). -/
def execNot (s : State) : Answer := complete s (notResult s.operands)
/-- The meaning of `SEL` (R63). -/
def execSel (s : State) : Answer := complete s (selResult s.operands)

end Sys2Proof.Machine
end

