-- ==== Sys2Proof/Machine/Broadcast.lean ====
section
/-! DEFINITION. Broadcast (`spec/44_broadcast.md`, R91). -/

namespace Sys2Proof.Machine

/-- `DUP`: `Y <- bcast(lane(A, 0))` (R91). -/
def dupResult {n : Nat} (o : Operands n) : Result n := vectorResult (bcast (lane o.a 0))

/-- The meaning of `DUP` (R91). -/
def execDup (s : State) : Answer := complete s (dupResult s.operands)

end Sys2Proof.Machine
end

