-- ==== Sys2Proof/Machine/Compare.lean ====
section
/-! DEFINITION. Comparison, mask generation and reduction (`spec/41_compare_reduce.md`, R64 to R74). Ordering is
signed (D11). -/

namespace Sys2Proof.Machine

/-- `mask(lane(A, i) == lane(B, i))` (R64). -/
def cmpEqLane (a b : Word) : Word := mask (a == b)
/-- `~mask(lane(A, i) == lane(B, i))` (R65). -/
def cmpNeLane (a b : Word) : Word := ~~~mask (a == b)
/-- `mask(sint(lane(A, i)) > sint(lane(B, i)))` (R66). -/
def cmpGtLane (a b : Word) : Word := mask (decide (sint a > sint b))
/-- `mask(sint(lane(A, i)) >= sint(lane(B, i)))` (R67). -/
def cmpGeLane (a b : Word) : Word := mask (decide (sint a ≥ sint b))
/-- `mask(sint(lane(A, i)) < sint(lane(B, i)))` (R68). -/
def cmpLtLane (a b : Word) : Word := mask (decide (sint a < sint b))
/-- `mask(sint(lane(A, i)) <= sint(lane(B, i)))` (R69). -/
def cmpLeLane (a b : Word) : Word := mask (decide (sint a ≤ sint b))
/-- `mask(lane(A, i) == ZERO)` (R70). -/
def cmpZLane (a : Word) : Word := mask (a == zeroWord)
/-- `mask(lane(A, i) != ZERO)` (R71). -/
def cmpNzLane (a : Word) : Word := mask (a != zeroWord)

/-- "Every lane of A is non-zero" (R72), for every bit pattern (U2). -/
def allLanesNonZero {n : Nat} (a : Vec n) : Bool := (List.range n).all fun i => lane a i != zeroWord
/-- "At least one lane of A is non-zero" (R73), for every bit pattern (U2). -/
def anyLaneNonZero {n : Nat} (a : Vec n) : Bool := (List.range n).any fun i => lane a i != zeroWord

/-- `CMPEQ` (R64). -/
def cmpEqResult {n : Nat} (o : Operands n) : Result n := vectorResult (map2 cmpEqLane o.a o.b)
/-- `CMPNE` (R65). -/
def cmpNeResult {n : Nat} (o : Operands n) : Result n := vectorResult (map2 cmpNeLane o.a o.b)
/-- `CMPGT` (R66). -/
def cmpGtResult {n : Nat} (o : Operands n) : Result n := vectorResult (map2 cmpGtLane o.a o.b)
/-- `CMPGE` (R67). -/
def cmpGeResult {n : Nat} (o : Operands n) : Result n := vectorResult (map2 cmpGeLane o.a o.b)
/-- `CMPLT` (R68). -/
def cmpLtResult {n : Nat} (o : Operands n) : Result n := vectorResult (map2 cmpLtLane o.a o.b)
/-- `CMPLE` (R69). -/
def cmpLeResult {n : Nat} (o : Operands n) : Result n := vectorResult (map2 cmpLeLane o.a o.b)
/-- `CMPZ` (R70). -/
def cmpZResult {n : Nat} (o : Operands n) : Result n := vectorResult (map1 cmpZLane o.a)
/-- `CMPNZ` (R71). -/
def cmpNzResult {n : Nat} (o : Operands n) : Result n := vectorResult (map1 cmpNzLane o.a)
/-- `ALL` (R72, R74). -/
def allResult {n : Nat} (o : Operands n) : Result n := booleanResult (allLanesNonZero o.a)
/-- `ANY` (R73, R74). -/
def anyResult {n : Nat} (o : Operands n) : Result n := booleanResult (anyLaneNonZero o.a)

/-- The meaning of `CMPEQ` (R64). -/
def execCmpeq (s : State) : Answer := complete s (cmpEqResult s.operands)
/-- The meaning of `CMPNE` (R65). -/
def execCmpne (s : State) : Answer := complete s (cmpNeResult s.operands)
/-- The meaning of `CMPGT` (R66). -/
def execCmpgt (s : State) : Answer := complete s (cmpGtResult s.operands)
/-- The meaning of `CMPGE` (R67). -/
def execCmpge (s : State) : Answer := complete s (cmpGeResult s.operands)
/-- The meaning of `CMPLT` (R68). -/
def execCmplt (s : State) : Answer := complete s (cmpLtResult s.operands)
/-- The meaning of `CMPLE` (R69). -/
def execCmple (s : State) : Answer := complete s (cmpLeResult s.operands)
/-- The meaning of `CMPZ` (R70). -/
def execCmpz (s : State) : Answer := complete s (cmpZResult s.operands)
/-- The meaning of `CMPNZ` (R71). -/
def execCmpnz (s : State) : Answer := complete s (cmpNzResult s.operands)
/-- The meaning of `ALL` (R72). -/
def execAll (s : State) : Answer := complete s (allResult s.operands)
/-- The meaning of `ANY` (R73). -/
def execAny (s : State) : Answer := complete s (anyResult s.operands)

end Sys2Proof.Machine
end

