-- ==== Sys2Proof/Machine/Scaling.lean ====
section
/-! DEFINITION. Power-of-two scaling (`spec/43_scaling.md`, R87 to R90). The path is chosen by the sign of the
exponent, never by lane data (R87). -/

namespace Sys2Proof.Machine

/-- The saturating left shift by `k`: `bits32(clamp(x * 2^k))` on the exact product (R88). -/
def shiftUpLane (k : Nat) (x : Word) : Word := bits32 (clamp (sint x * 2 ^ k))

/-- The rounding right shift by `n`: `bits32(floor((x + 2^(n-1)) / 2^n))` on the exact sum (R89). -/
def shiftDownLane (n : Nat) (x : Word) : Word := bits32 ((sint x + 2 ^ (n - 1)) / 2 ^ n)

/-- `POT #e` in one lane: R88 for `e > 0`, R90 for `e = 0`, R89 for `e < 0` (R87). -/
def potLane (e : Int) (x : Word) : Word :=
  if e > 0 then shiftUpLane e.toNat x
  else if e = 0 then x
  else shiftDownLane (-e).toNat x

/-- `POT #e` (R87). -/
def potResult {n : Nat} (e : Int) (o : Operands n) : Result n := vectorResult (map1 (potLane e) o.a)

/-- The meaning of `POT #e` (R87). -/
def execPot (e : Int) (s : State) : Answer := complete s (potResult e s.operands)

end Sys2Proof.Machine
end

