-- ==== Sys2Proof/Machine/Dispatch.lean ====
section
/-! DEFINITION. One arm per operation (R49, R58). -/

namespace Sys2Proof.Machine

/-- What the accepted operation `i` does, at the edge that accepts it: R58's "Y <- result of the rule of opc". -/
def exec (i : Instr) (s : State) : Host.Outcome State Fault Refusal :=
  match i with
  | .and => Sys2Proof.Machine.execAnd s
  | .or => Sys2Proof.Machine.execOr s
  | .xor => Sys2Proof.Machine.execXor s
  | .not => Sys2Proof.Machine.execNot s
  | .sel => Sys2Proof.Machine.execSel s
  | .cmpeq => Sys2Proof.Machine.execCmpeq s
  | .cmpne => Sys2Proof.Machine.execCmpne s
  | .cmpgt => Sys2Proof.Machine.execCmpgt s
  | .cmpge => Sys2Proof.Machine.execCmpge s
  | .cmplt => Sys2Proof.Machine.execCmplt s
  | .cmple => Sys2Proof.Machine.execCmple s
  | .cmpz => Sys2Proof.Machine.execCmpz s
  | .cmpnz => Sys2Proof.Machine.execCmpnz s
  | .all => Sys2Proof.Machine.execAll s
  | .any => Sys2Proof.Machine.execAny s
  | .add => Sys2Proof.Machine.execAdd s
  | .sub => Sys2Proof.Machine.execSub s
  | .neg => Sys2Proof.Machine.execNeg s
  | .rhadd => Sys2Proof.Machine.execRhadd s
  | .qrdmulh => Sys2Proof.Machine.execQrdmulh s
  | .qadd => Sys2Proof.Machine.execQadd s
  | .qsub => Sys2Proof.Machine.execQsub s
  | .qneg => Sys2Proof.Machine.execQneg s
  | .pot e => Sys2Proof.Machine.execPot e s
  | .dup => Sys2Proof.Machine.execDup s

end Sys2Proof.Machine
end

