-- ==== Sys2Proof/Machine/Operation.lean ====
section
/-! DEFINITION. The operation function `Exec` of R20 and R58, for any lane count (R8): the meaning of an operation apart
from the clock. The machine of `Dispatch.lean` puts the same results into the pipeline. -/

namespace Sys2Proof.Machine

/-- The result of a legal operation on its operands (R49, R58). -/
def operationResult {n : Nat} (i : Instr) (o : Operands n) : Result n :=
  match i with
  | .and => andResult o
  | .or => orResult o
  | .xor => xorResult o
  | .not => notResult o
  | .sel => selResult o
  | .cmpeq => cmpEqResult o
  | .cmpne => cmpNeResult o
  | .cmpgt => cmpGtResult o
  | .cmpge => cmpGeResult o
  | .cmplt => cmpLtResult o
  | .cmple => cmpLeResult o
  | .cmpz => cmpZResult o
  | .cmpnz => cmpNzResult o
  | .all => allResult o
  | .any => anyResult o
  | .add => addResult o
  | .sub => subResult o
  | .neg => negResult o
  | .rhadd => rhaddResult o
  | .qrdmulh => qrdmulhResult o
  | .qadd => qaddResult o
  | .qsub => qsubResult o
  | .qneg => qnegResult o
  | .pot e => potResult e o
  | .dup => dupResult o

/-- `Exec(OP, A, B, C) = (S, Y, T)` (R20, R58), total on every word and operands. -/
def operationFunction {n : Nat} (op : BitVec 32) (o : Operands n) : Result n :=
  match decode op with
  | .legal i => operationResult i o
  | .illegalOpcode => illegalResult .illegalOpcode
  | .reservedField => illegalResult .reservedField

end Sys2Proof.Machine
end

