-- ==== Sys2Proof/Machine/Clock.lean ====
section
/-! DEFINITION. One rising edge of `clk`, for any `LATENCY` (R9, R23 to R28, R107 to R111). -/

namespace Sys2Proof.Machine

/-- Whether the next edge accepts an operation: `rst` is 0, `in_valid` is 1 and `in_ready` is 1 (R23), in a unit that
has been reset (R111). -/
def State.accepts (s : State) : Bool := s.resetSeen && !s.pins.rst && s.pins.inValid && s.inReady

/-- The accepted word runs, its operands sampled at this edge: the decoded operation, or the outcome of a word that
names none (R56, R58, R95). -/
def runAccepted (s : State) : Answer :=
  match decode s.pins.inOp with
  | .legal i => exec i s
  | .illegalOpcode => raiseIllegalOperation .illegalOpcode s
  | .reservedField => raiseIllegalOperation .reservedField s

/-- The outputs follow the operation, in the cycle that begins at this edge (R24, R25). -/
def finishAnswer (lat : Nat) : Answer → Answer
  | .next s => .next (s.finishEdge lat)
  | .fault f => .fault f
  | .refused r => .refused r

/-- One rising edge with `LATENCY = lat`. Within the edge: the operations in flight grow older, the offered operation
is accepted behind them, and the operation accepted `lat` edges ago is presented (R23, R25, R28;
notes/assumptions/12). -/
def clockEdge (lat : Nat) (s : State) : Answer :=
  if s.pins.rst then .next s.resetEdge
  else if !s.resetSeen then .next s.powerUpEdge
  else if s.accepts then finishAnswer lat (runAccepted s.tick)
  else .next (s.tick.finishEdge lat)

/-- `k` rising edges with `LATENCY = lat`. -/
def runEdges (lat : Nat) : Nat → State → Answer
  | 0, s => .next s
  | k + 1, s =>
    match clockEdge lat s with
    | .next t => runEdges lat k t
    | .fault f => .fault f
    | .refused r => .refused r

/-- The levels the next `k` edges sample, for a host whose list is long enough: after it the host offers nothing
(notes/assumptions/1). -/
def State.drives (s : State) (k : Nat) : List Pins := (s.pins :: s.host).take k

end Sys2Proof.Machine
end

