-- ==== Sys2Proof/Machine/Step.lean ====
section
/-! DEFINITION. The machine's step: one rising edge of `clk`, at this unit's `LATENCY`. -/

namespace Sys2Proof.Machine

/-- One rising edge of `clk` (R19), with the unit's own `LATENCY` (R9). -/
def step : State → Host.Outcome State Fault Refusal := clockEdge Config.latency

/-- `s` with the word `w` offered on `in_op` so that the very next edge accepts and runs it. The unit fetches nothing
(R18, R41): the host presents each word, and the operand ports keep their levels (notes/assumptions/10). -/
def State.withFetchWord (s : State) (nbits w : Nat) : State := s.offer (BitVec.ofNat 32 (w % 2 ^ nbits))

end Sys2Proof.Machine
end

