-- ==== Sys2Proof/Machine/Assembler.lean ====
section
/-! DEFINITION. The assembler's side of R53: mnemonics, and the word a written operation stands for. -/

namespace Sys2Proof.Machine

/-- The mnemonic of an operation, in upper case (R49, R53). -/
def mnemonic : Instr → String
  | .and => "AND"
  | .or => "OR"
  | .xor => "XOR"
  | .not => "NOT"
  | .sel => "SEL"
  | .cmpeq => "CMPEQ"
  | .cmpne => "CMPNE"
  | .cmpgt => "CMPGT"
  | .cmpge => "CMPGE"
  | .cmplt => "CMPLT"
  | .cmple => "CMPLE"
  | .cmpz => "CMPZ"
  | .cmpnz => "CMPNZ"
  | .all => "ALL"
  | .any => "ANY"
  | .add => "ADD"
  | .sub => "SUB"
  | .neg => "NEG"
  | .rhadd => "RHADD"
  | .qrdmulh => "QRDMULH"
  | .qadd => "QADD"
  | .qsub => "QSUB"
  | .qneg => "QNEG"
  | .pot _ => "POT"
  | .dup => "DUP"

/-- The operations written without an immediate, with their mnemonics (R49, R53). -/
def plainMnemonics : List (String × Instr) :=
  [("AND", .and), ("OR", .or), ("XOR", .xor), ("NOT", .not), ("SEL", .sel), ("CMPEQ", .cmpeq), ("CMPNE", .cmpne),
   ("CMPGT", .cmpgt), ("CMPGE", .cmpge), ("CMPLT", .cmplt), ("CMPLE", .cmple), ("CMPZ", .cmpz)] ++
  [("CMPNZ", .cmpnz), ("ALL", .all), ("ANY", .any), ("ADD", .add), ("SUB", .sub), ("NEG", .neg), ("RHADD", .rhadd),
   ("QRDMULH", .qrdmulh), ("QADD", .qadd), ("QSUB", .qsub), ("QNEG", .qneg), ("DUP", .dup)]

/-- The operation a mnemonic and an optional `#e` name; none where the mnemonic is unknown (R53). `POT` is written
with an immediate and every other operation without one (notes/assumptions/15). -/
def namedOperation (name : String) (imm : Option Int) : Option Instr :=
  match imm with
  | some e => if name = "POT" then some (.pot e) else none
  | none => plainMnemonics.lookup name

/-- The assembler (R53): the word, or a rejection for "an exponent outside `[-32, 31]`" and for "any unknown
mnemonic". -/
def assemble (name : String) (imm : Option Int) : Option (BitVec 32) :=
  match namedOperation name imm with
  | none => none
  | some i => if i.wellFormed then some (encode i) else none

end Sys2Proof.Machine
end

