-- ==== Sys2Proof/Machine/Program.lean ====
section
/-! DEFINITION. Programs as a host runs them (R54), and the pseudo-instructions (R55). The unit keeps no value (R17), so
a program's values are the host's. -/

namespace Sys2Proof.Machine

/-- One line of a program: `%dst = <operation word> %src, …` (R54). -/
structure Line where
  dst  : String
  op   : BitVec 32
  srcs : List String
deriving DecidableEq, Repr

/-- The values a host holds, by name, oldest first. A start value is a result like any other. -/
abbrev Values (n : Nat) := List (String × Result n)

/-- A value the program starts with. -/
def startValue {n : Nat} (name : String) (v : Vec n) : String × Result n := (name, vectorResult v)

/-- The `Y` value of a name; none where the host has not captured it (R54, R113). -/
def Values.vector {n : Nat} (vals : Values n) (name : String) : Option (Vec n) :=
  (vals.lookup name).map Result.y

/-- How many operands a word reads (R48, R49); a word that does not decode reads none (R95). -/
def operandCount (op : BitVec 32) : Nat :=
  match decode op with
  | .legal i => (reads i).length
  | .illegalOpcode | .reservedField => 0

/-- The operands the host drives for a line, in the order A, B, C (R54). A port with no source is ignored and carries 0
(notes/assumptions/13). None where a source has not been captured or there are more than three. -/
def Values.operands {n : Nat} (vals : Values n) (srcs : List String) : Option (Operands n) :=
  match srcs with
  | [] => some ⟨0#_, 0#_, 0#_⟩
  | [x] => do return ⟨← vals.vector x, 0#_, 0#_⟩
  | [x, y] => do return ⟨← vals.vector x, ← vals.vector y, 0#_⟩
  | [x, y, z] => do return ⟨← vals.vector x, ← vals.vector y, ← vals.vector z⟩
  | _ => none

/-- One line: the operation's result under a new name. None where the name is already defined, where a source is not
yet captured, or where an operand the operation reads is not listed (R54). -/
def Line.run {n : Nat} (l : Line) (vals : Values n) : Option (Values n) :=
  if (vals.lookup l.dst).isSome || l.srcs.length < operandCount l.op then none
  else (vals.operands l.srcs).map fun o => vals ++ [(l.dst, operationFunction l.op o)]

/-- A program: its lines in order (R54). -/
def runLines {n : Nat} : List Line → Values n → Option (Values n)
  | [], vals => some vals
  | l :: rest, vals =>
    match l.run vals with
    | none => none
    | some next => runLines rest next

/-- The pseudo-instructions (R55). -/
inductive Pseudo where
  | qshl (k : Nat)
  | rshr (m : Nat)
  | scaleup (k : Nat)
  | scaledown (m : Nat)
  | mov
  | zero
  | ones
  | andn
deriving DecidableEq, Repr

/-- The immediates R55 allows: `k` in 1..31, `m` in 1..32. -/
def Pseudo.wellFormed : Pseudo → Bool
  | .qshl k | .scaleup k => decide (1 ≤ k ∧ k ≤ 31)
  | .rshr m | .scaledown m => decide (1 ≤ m ∧ m ≤ 32)
  | .mov | .zero | .ones | .andn => true

/-- The expansion of a pseudo-instruction (R55). `b` is read by `ANDN` alone, whose first line defines `z`. -/
def Pseudo.expand (dst a b z : String) : Pseudo → List Line
  | .qshl k | .scaleup k => [⟨dst, encode (.pot k), [a]⟩]
  | .rshr m | .scaledown m => [⟨dst, encode (.pot (-m)), [a]⟩]
  | .mov => [⟨dst, encode .or, [a, a]⟩]
  | .zero => [⟨dst, encode .xor, [a, a]⟩]
  | .ones => [⟨dst, encode .cmpeq, [a, a]⟩]
  | .andn => [⟨z, encode .xor, [a, a]⟩, ⟨dst, encode .sel, [b, z, a]⟩]

end Sys2Proof.Machine
end

