-- ==== Sys2Proof/Machine/TimeFree.lean ====
section
/-! DEFINITION. The time-free view of R118: a FIFO of pending results and three steps, with no clock in it. -/

namespace Sys2Proof.Machine

/-- The state of the time-free view: the FIFO `P` of pending results, oldest first, empty after reset (R118). -/
abbrev Fifo := List (Result Config.lanes)

/-- The three steps of the time-free view (R118). -/
inductive ViewStep where
  | accept (op : BitVec 32) (o : Operands Config.lanes)
  | present
  | reset
deriving DecidableEq, Repr

/-- One step of the view: the FIFO after it and the results it emits; none where it cannot happen (R118). To present needs a
result to present (notes/assumptions/14). -/
def ViewStep.run : ViewStep → Fifo → Option (Fifo × List (Result Config.lanes))
  | .accept op o, p => some (p ++ [operationFunction op o], [])
  | .present, [] => none
  | .present, r :: p => some (p, [r])
  | .reset, _ => some ([], [])

/-- Steps of the view one after another, with all they emit in order. -/
def runView : List ViewStep → Fifo → Option (Fifo × List (Result Config.lanes))
  | [], p => some (p, [])
  | a :: rest, p =>
    match a.run p with
    | none => none
    | some (q, emitted) =>
      match runView rest q with
      | none => none
      | some (final, later) => some (final, emitted ++ later)

end Sys2Proof.Machine
end

