-- ==== Sys2Proof/Safety.lean ====
section
/-! DEFINITION. What every state of a run satisfies. The unit cannot stop, so a safe run is one whose results are
proper, in order and on time. -/

namespace Sys2Proof.Machine

/-- The assigned `OPC` values as R58 lists them: `{0x01..0x05, 0x10..0x19, 0x20..0x27, 0x30, 0x40}`. -/
abbrev AssignedOpcode (opc : Nat) : Prop :=
  (0x01 ≤ opc ∧ opc ≤ 0x05) ∨ (0x10 ≤ opc ∧ opc ≤ 0x19) ∨ (0x20 ≤ opc ∧ opc ≤ 0x27) ∨ opc = 0x30 ∨ opc = 0x40

/-- The fields of an operation word as numbers: `OPC` is bits 7 to 0, `IMM6` bits 13 to 8, `RSVD` bits 31 to 14
(R45). -/
abbrev opcNumber (op : BitVec 32) : Nat := op.toNat % 256
/-- `IMM6` as a number (R45). -/
abbrev imm6Number (op : BitVec 32) : Nat := op.toNat / 256 % 64
/-- `RSVD` as a number (R45). -/
abbrev rsvdNumber (op : BitVec 32) : Nat := op.toNat / 16384

/-- No edge that samples these levels samples `rst` 1. -/
abbrev NoReset (ps : List Pins) : Prop := ∀ p ∈ ps, p.rst = false

/-- No edge that samples these levels samples an offer. -/
abbrev NoOffer (ps : List Pins) : Prop := ∀ p ∈ ps, p.inValid = false

/-- The operand vectors with A and B exchanged. -/
abbrev Operands.swap {n : Nat} (o : Operands n) : Operands n := ⟨o.b, o.a, o.c⟩

/-- What R93 and R74 say of every result: a failed word has `Y` all zero and `T = 0`, and `T = 1` comes only with
status `OK` and the all-ones mask. -/
abbrev Result.Proper {n : Nat} (r : Result n) : Prop :=
  (r.s ≠ .ok → r.y = bcast zeroWord ∧ r.t = false) ∧ (r.t = true → r.s = .ok ∧ r.y = bcast onesWord)

/-- The operations in flight were accepted at different edges, oldest first, each less than `lat` edges ago (R25, R26,
R28). -/
abbrev PipelineInOrder (lat : Nat) (p : List Entry) : Prop :=
  p.Pairwise (fun e f => f.age < e.age) ∧ ∀ e ∈ p, e.age < lat

/-- The invariant of the unit with `LATENCY = lat`. It rules out the states that no run reaches. -/
structure UnitInv (lat : Nat) (s : State) : Prop where
  /-- The pipeline is in acceptance order and nothing in it is overdue (R25, R26). -/
  inOrder : PipelineInOrder lat s.pipeline
  /-- Every result in flight is proper (R74, R93). -/
  pendingProper : ∀ e ∈ s.pipeline, e.result.Proper
  /-- Every result presented is proper (R74, R93). -/
  traceProper : ∀ r ∈ s.trace, r.Proper
  /-- In a reset cycle nothing is in flight and nothing is presented (R108, R109). -/
  inReset : s.resetSeen = true → s.inReady = false → s.pipeline = [] ∧ s.outValid = false
  /-- Before the first reset nothing is in flight or recorded as presented. No rule says so: R111 lets an offer then be
  accepted or not. DEDUCED, unsafe as a claim on the hardware (notes/assumptions/6). -/
  poweredUp : s.resetSeen = false → s.pipeline = [] ∧ s.trace = []
  /-- What a valid cycle presents is the newest result of the trace, its status as R93 codes it (R25). -/
  presented : s.resetSeen = true → s.outValid = true →
    ∃ r, s.trace.getLast? = some r ∧ s.outY = r.y ∧ s.outT = r.t ∧ s.outStatus = r.s.code

end Sys2Proof.Machine
end

