-- ==== Sys2Proof/Certificates/Slice0/Obligations.lean ====
section
/-! DEFINITION. The statements about the FXU, for the provers. Each docstring names the rule it formalises. -/

open Sys2Proof Sys2Proof.Machine

/-! ### Encoding -/

/-- One word of each family, and one word for each rejection, written out from R45, R49 and R53. -/
def Obligations.SampleWordsDecode : Prop :=
  decode 0b00000000000000000000000000000001#32 = .legal .and ∧
  decode 0b00000000000000000000000000000101#32 = .legal .sel ∧
  decode 0b00000000000000000000000000010010#32 = .legal .cmpgt ∧
  decode 0b00000000000000000000000000011001#32 = .legal .any ∧
  decode 0b00000000000000000000000000100100#32 = .legal .qrdmulh ∧
  decode 0b00000000000000000011111100110000#32 = .legal (.pot (-1)) ∧
  decode 0b00000000000000000000000001000000#32 = .legal .dup ∧
  decode 0b00000000000000000000000000000000#32 = .illegalOpcode ∧
  decode 0b00000000000000000000000100100000#32 = .reservedField

/-- R56: the tests of the decoder, in their order. The fields are read as numbers. -/
def Obligations.DecoderTestsInOrder : Prop :=
  ∀ op : BitVec 32,
    (¬ AssignedOpcode (opcNumber op) → decode op = .illegalOpcode) ∧
    (AssignedOpcode (opcNumber op) → rsvdNumber op ≠ 0 → decode op = .reservedField) ∧
    (AssignedOpcode (opcNumber op) → rsvdNumber op = 0 → opcNumber op ≠ 0x30 → imm6Number op ≠ 0 →
      decode op = .reservedField) ∧
    (AssignedOpcode (opcNumber op) → rsvdNumber op = 0 → (opcNumber op = 0x30 ∨ imm6Number op = 0) →
      ∃ i, decode op = .legal i ∧ i.opcode.toNat = opcNumber op)

/-- R49: the legal words are those that match a row of the table under its mask, each the operation of that row; no
two rows share a word; there are 25 rows. -/
def Obligations.LegalWordsAreTheTableRows : Prop :=
  (∀ op i, decode op = .legal i → ∃ r ∈ opcodeRows, op &&& r.mask = r.pattern ∧ r.mnemonic = mnemonic i) ∧
  (∀ op, ∀ r ∈ opcodeRows, op &&& r.mask = r.pattern → ∃ i, decode op = .legal i ∧ mnemonic i = r.mnemonic) ∧
  opcodeRows.length = 25 ∧
  opcodeRows.Pairwise (fun r q => r.pattern &&& (r.mask &&& q.mask) ≠ q.pattern &&& (r.mask &&& q.mask))

/-- R47: the exponent of `POT` is `IMM6` read as 6-bit two's complement, unscaled, in `[-32, 31]`; no other operation
has an immediate. -/
def Obligations.PotExponentIsSignedImmediate : Prop :=
  (∀ imm : BitVec 6, decode (imm.zeroExtend 32 <<< 8 ||| 0x30#32) = .legal (.pot imm.toInt) ∧
    imm.toInt = ((imm.signExtend 32).toInt) ∧ -32 ≤ imm.toInt ∧ imm.toInt ≤ 31) ∧
  decode 0x00000030#32 = .legal (.pot 0) ∧
  decode 0x00001F30#32 = .legal (.pot 31) ∧
  decode 0x00002030#32 = .legal (.pot (-32)) ∧
  decode 0x00003F30#32 = .legal (.pot (-1)) ∧
  (∀ op i, decode op = .legal i → (∀ e, i ≠ .pot e) → imm6Number op = 0)

/-- Decode and encode agree in both directions: every well-formed operation is read back from its word, and every
legal word is the word of the well-formed operation it is read as (R44, R45, R49, R53, R57). -/
def Obligations.DecodeAndEncodeAgree : Prop :=
  (∀ i : Instr, i.WellFormed → decode (encode i) = .legal i) ∧
  (∀ op i, decode op = .legal i → i.WellFormed ∧ encode i = op)

/-- R53: the assembler writes `zext_32(IMM6) << 8 | OPC`, with the exponent modulo 2^6 for `POT` and 0 otherwise. It
rejects an exponent outside `[-32, 31]` and any unknown mnemonic. Four examples. -/
def Obligations.AssemblerWritesTheWord : Prop :=
  (∀ i : Instr, (∀ e, i ≠ .pot e) → assemble (mnemonic i) none = some (BitVec.ofNat 32 i.opcode.toNat)) ∧
  (∀ e : Int, -32 ≤ e → e ≤ 31 → assemble "POT" (some e) = some (BitVec.ofNat 32 ((e % 64).toNat * 256 + 0x30))) ∧
  (∀ e : Int, e < -32 ∨ 31 < e → assemble "POT" (some e) = none) ∧
  (∀ name imm, (∀ i, mnemonic i ≠ name) → assemble name imm = none) ∧
  assemble "AND" none = some 0x00000001#32 ∧ assemble "POT" (some 2) = some 0x00000230#32 ∧
  assemble "POT" (some (-1)) = some 0x00003F30#32 ∧ assemble "POT" (some (-32)) = some 0x00002030#32

/-- R50, R51: an accepted word whose `OPC` is unassigned completes with `ILLEGAL_OPCODE`, whatever its other fields; an
accepted word whose `OPC` is assigned and whose `RSVD`, or `IMM6` outside `POT`, is not 0 completes with
`RESERVED_FIELD`. Neither runs an operation. 231 of the 256 `OPC` values are unassigned, `0x00` among them. -/
def Obligations.MalformedWordsCompleteWithAStatus : Prop :=
  (∀ s : State, ¬ AssignedOpcode (opcNumber s.pins.inOp) →
    runAccepted s = .next (s.deliver ⟨.illegalOpcode, 0#_, false⟩)) ∧
  (∀ s : State, AssignedOpcode (opcNumber s.pins.inOp) →
    (rsvdNumber s.pins.inOp ≠ 0 ∨ (opcNumber s.pins.inOp ≠ 0x30 ∧ imm6Number s.pins.inOp ≠ 0)) →
    runAccepted s = .next (s.deliver ⟨.reservedField, 0#_, false⟩)) ∧
  (∀ s : State, AssignedOpcode (opcNumber s.pins.inOp) → rsvdNumber s.pins.inOp = 0 →
    (opcNumber s.pins.inOp = 0x30 ∨ imm6Number s.pins.inOp = 0) →
    ∃ y t, runAccepted s = .next (s.deliver ⟨.ok, y, t⟩)) ∧
  ((List.range 256).filter fun opc => decide (¬ AssignedOpcode opc)).length = 231 ∧ ¬ AssignedOpcode 0x00

/-! ### The step and the operation function -/

/-- An edge that accepts a word which decodes to `i` is `exec i` at that state with the operations in flight one edge
older, followed by the edge's outputs; and `step` is that edge at the unit's own `LATENCY`. A state made by
`withFetchWord` is one that accepts, with the word's low 32 bits on `in_op`. Two things here are the model's: the order
within an edge (`exec` at `s.tick`, then `finishEdge`) is the DEDUCED reading of notes/assumptions/12, and `withFetchWord`
is the DESIGN CHOICE of notes/assumptions/10 and 11. -/
def Obligations.StepRunsTheDecodedOperation : Prop :=
  (∀ lat s i, s.accepts = true → decode s.pins.inOp = .legal i →
    ∃ t, exec i s.tick = .next t ∧ clockEdge lat s = .next (t.finishEdge lat)) ∧
  (∀ s i, s.accepts = true → decode s.pins.inOp = .legal i →
    ∃ t, exec i s.tick = .next t ∧ step s = .next (t.finishEdge Config.latency)) ∧
  (∀ (s : State) nbits w, (s.withFetchWord nbits w).accepts = true ∧
    (s.withFetchWord nbits w).pins.inOp = BitVec.ofNat 32 (w % 2 ^ nbits))

/-- R58, R95: an accepted word puts `Exec(OP, A, B, C)` into the pipeline, with status `OK` exactly when it is legal;
a word that fails decoding is accepted, completes and changes nothing else, as a legal one. -/
def Obligations.AcceptedWordDeliversExec : Prop :=
  ∀ s : State, runAccepted s = .next (s.deliver (operationFunction s.pins.inOp ⟨s.pins.inA, s.pins.inB, s.pins.inC⟩)) ∧
    ((operationFunction s.pins.inOp s.operands).s = .ok ↔ ∃ i, decode s.pins.inOp = .legal i) ∧
    (∀ i, decode s.pins.inOp = .legal i → runAccepted s = exec i s) ∧
    (decode s.pins.inOp = .illegalOpcode → operationFunction s.pins.inOp s.operands = ⟨.illegalOpcode, 0#_, false⟩) ∧
    (decode s.pins.inOp = .reservedField → operationFunction s.pins.inOp s.operands = ⟨.reservedField, 0#_, false⟩)

/-- The frame of every operation (R21, R22, R29): it answers a next state with one more result in flight, of age 0,
which depends on the operand ports alone; every other part of the state is unchanged. The status is `OK` whatever the
operands (R94), and `T` is 0 but for the two reductions (R74). -/
def Obligations.OperationsChangeOnlyThePipeline : Prop :=
  ∀ i : Instr, ∃ f : Operands Config.lanes → Result Config.lanes,
    (∀ o, (f o).s = .ok ∧ (i ≠ .all → i ≠ .any → (f o).t = false)) ∧
    ∀ s : State, ∃ t, exec i s = .next t ∧ t.pipeline = s.pipeline ++ [⟨f ⟨s.pins.inA, s.pins.inB, s.pins.inC⟩, 0⟩] ∧
      t.pins = s.pins ∧ t.host = s.host ∧ t.resetSeen = s.resetSeen ∧ t.inReady = s.inReady ∧
      t.outValid = s.outValid ∧ t.outY = s.outY ∧ t.outT = s.outT ∧ t.outStatus = s.outStatus ∧
      t.trace = s.trace ∧ t.freeIndex = s.freeIndex

/-- R48: only `SEL` reads C; the nine one-operand operations ignore B; `DUP` ignores every lane of A but lane 0. -/
def Obligations.UnlistedOperandsAreIgnored : Prop :=
  (∀ (n : Nat) (i : Instr) (a b c c' : Vec n), i ≠ .sel →
    operationResult i ⟨a, b, c⟩ = operationResult i ⟨a, b, c'⟩) ∧
  (∀ (n : Nat) (i : Instr) (a b b' c : Vec n),
    i ∈ [.not, .neg, .qneg, .cmpz, .cmpnz, .all, .any, .dup] ∨ (∃ e, i = .pot e) →
    operationResult i ⟨a, b, c⟩ = operationResult i ⟨a, b', c⟩) ∧
  (∀ (n : Nat) (a a' b c : Vec n), lane a 0 = lane a' 0 →
    operationResult .dup ⟨a, b, c⟩ = operationResult .dup ⟨a', b, c⟩) ∧
  reads .sel = [.a, .b, .c] ∧
  (∀ i ∈ [Instr.not, .neg, .qneg, .cmpz, .cmpnz, .all, .any, .dup], reads i = [.a]) ∧
  (∀ e, reads (.pot e) = [.a]) ∧
  (∀ i ∈ [Instr.and, .or, .xor, .cmpeq, .cmpne, .cmpgt, .cmpge, .cmplt, .cmple, .add, .sub, .rhadd, .qrdmulh, .qadd,
    .qsub], reads i = [.a, .b])

/-! ### Bitwise logic and select -/

/-- R59 to R62: `AND`, `OR`, `XOR` and `NOT` on the whole vector, with their words and corner cases. -/
def Obligations.BitwiseOperationsCompute : Prop :=
  (encode .and = 0x00000001#32 ∧ encode .or = 0x00000002#32 ∧ encode .xor = 0x00000003#32 ∧
    encode .not = 0x00000004#32) ∧
  ∀ s : State,
    exec .and s = .next (s.deliver ⟨.ok, s.pins.inA &&& s.pins.inB, false⟩) ∧
    exec .or s = .next (s.deliver ⟨.ok, s.pins.inA ||| s.pins.inB, false⟩) ∧
    exec .xor s = .next (s.deliver ⟨.ok, s.pins.inA ^^^ s.pins.inB, false⟩) ∧
    exec .not s = .next (s.deliver ⟨.ok, ~~~s.pins.inA, false⟩) ∧
    (s.pins.inA = s.pins.inB → exec .and s = .next (s.deliver ⟨.ok, s.pins.inA, false⟩) ∧
      exec .or s = .next (s.deliver ⟨.ok, s.pins.inA, false⟩) ∧ exec .xor s = .next (s.deliver ⟨.ok, 0#_, false⟩)) ∧
    (s.pins.inB = 0#_ → exec .and s = .next (s.deliver ⟨.ok, 0#_, false⟩) ∧
      exec .or s = .next (s.deliver ⟨.ok, s.pins.inA, false⟩)) ∧
    (s.pins.inB = BitVec.allOnes _ → exec .and s = .next (s.deliver ⟨.ok, s.pins.inA, false⟩) ∧
      exec .or s = .next (s.deliver ⟨.ok, BitVec.allOnes _, false⟩) ∧
      exec .xor s = .next (s.deliver ⟨.ok, ~~~s.pins.inA, false⟩)) ∧
    ∃ y, exec .not s = .next (s.deliver ⟨.ok, y, false⟩) ∧
      ∀ i, i < 4 → (lane s.pins.inA i = 0x80000000#32 → lane y i = 0x7FFFFFFF#32) ∧
        (lane s.pins.inA i = 0#32 → lane y i = 0xFFFFFFFF#32)

/-- R63: `SEL` takes each bit of `Y` from B where A has a 1 and from C where A has a 0, mask or not; so a lane of A that
is all ones selects B's lane and one that is all zeros selects C's; with its corner cases. -/
def Obligations.SelectIsBranchless : Prop :=
  encode .sel = 0x00000005#32 ∧
  ∀ s : State, ∃ y : Vec 4, exec .sel s = .next (s.deliver ⟨.ok, y, false⟩) ∧
    (∀ j, j < 128 → y.getLsbD j = if s.pins.inA.getLsbD j then s.pins.inB.getLsbD j else s.pins.inC.getLsbD j) ∧
    (∀ i, i < 4 → (lane s.pins.inA i = 0xFFFFFFFF#32 → lane y i = lane s.pins.inB i) ∧
      (lane s.pins.inA i = 0#32 → lane y i = lane s.pins.inC i)) ∧
    (s.pins.inB = s.pins.inC → y = s.pins.inB) ∧
    (s.pins.inA = s.pins.inB → y = s.pins.inA ||| s.pins.inC) ∧
    (s.pins.inA = s.pins.inC → y = s.pins.inA &&& s.pins.inB)

/-! ### Comparison and reduction -/

/-- R64, R65: the equality mask and its complement, in every lane. -/
def Obligations.EqualityMasks : Prop :=
  encode .cmpeq = 0x00000010#32 ∧ encode .cmpne = 0x00000011#32 ∧
  ∀ s : State, ∃ eq ne : Vec 4,
    exec .cmpeq s = .next (s.deliver ⟨.ok, eq, false⟩) ∧ exec .cmpne s = .next (s.deliver ⟨.ok, ne, false⟩) ∧
    ne = ~~~eq ∧
    (∀ i, i < 4 →
      lane eq i = (if lane s.pins.inA i = lane s.pins.inB i then 0xFFFFFFFF#32 else 0x00000000#32) ∧
      lane ne i = (if lane s.pins.inA i = lane s.pins.inB i then 0x00000000#32 else 0xFFFFFFFF#32)) ∧
    (s.pins.inA = s.pins.inB → eq = BitVec.allOnes 128 ∧ ne = 0#128)

/-- R66 to R69: the four ordering masks compare lanes as signed integers, with their corner cases. -/
def Obligations.OrderingMasksAreSigned : Prop :=
  encode .cmpgt = 0x00000012#32 ∧ encode .cmpge = 0x00000013#32 ∧ encode .cmplt = 0x00000014#32 ∧
  encode .cmple = 0x00000015#32 ∧
  ∀ s : State, ∃ gt ge lt le : Vec 4,
    exec .cmpgt s = .next (s.deliver ⟨.ok, gt, false⟩) ∧ exec .cmpge s = .next (s.deliver ⟨.ok, ge, false⟩) ∧
    exec .cmplt s = .next (s.deliver ⟨.ok, lt, false⟩) ∧ exec .cmple s = .next (s.deliver ⟨.ok, le, false⟩) ∧
    ∀ i, i < 4 →
      (lane gt i = if (lane s.pins.inA i).toInt > (lane s.pins.inB i).toInt then 0xFFFFFFFF#32 else 0x00000000#32) ∧
      (lane ge i = if (lane s.pins.inA i).toInt ≥ (lane s.pins.inB i).toInt then 0xFFFFFFFF#32 else 0x00000000#32) ∧
      (lane lt i = if (lane s.pins.inA i).toInt < (lane s.pins.inB i).toInt then 0xFFFFFFFF#32 else 0x00000000#32) ∧
      (lane le i = if (lane s.pins.inA i).toInt ≤ (lane s.pins.inB i).toInt then 0xFFFFFFFF#32 else 0x00000000#32) ∧
      (lane s.pins.inA i = lane s.pins.inB i → lane gt i = 0#32 ∧ lane ge i = 0xFFFFFFFF#32 ∧ lane lt i = 0#32 ∧
        lane le i = 0xFFFFFFFF#32) ∧
      (lane s.pins.inA i = 0xFFFFFFFF#32 → lane s.pins.inB i = 1#32 → lane gt i = 0#32) ∧
      (lane s.pins.inA i = 0x7FFFFFFF#32 → lane s.pins.inB i = 0x80000000#32 → lane gt i = 0xFFFFFFFF#32) ∧
      (lane s.pins.inA i = 0x80000000#32 → (lane ge i = 0xFFFFFFFF#32 ↔ lane s.pins.inB i = 0x80000000#32)) ∧
      (lane s.pins.inA i = 0x80000000#32 → lane s.pins.inB i = 0x7FFFFFFF#32 → lane lt i = 0xFFFFFFFF#32) ∧
      (lane s.pins.inB i = 0x7FFFFFFF#32 → lane le i = 0xFFFFFFFF#32)

/-- R70, R71: the zero and non-zero masks, which are `CMPEQ` and `CMPNE` against a broadcast zero. -/
def Obligations.ZeroTestMasks : Prop :=
  encode .cmpz = 0x00000016#32 ∧ encode .cmpnz = 0x00000017#32 ∧
  ∀ s : State, ∃ z nz : Vec 4,
    exec .cmpz s = .next (s.deliver ⟨.ok, z, false⟩) ∧ exec .cmpnz s = .next (s.deliver ⟨.ok, nz, false⟩) ∧
    (∀ i, i < 4 →
      lane z i = (if lane s.pins.inA i = 0#32 then 0xFFFFFFFF#32 else 0x00000000#32) ∧
      lane nz i = (if lane s.pins.inA i = 0#32 then 0x00000000#32 else 0xFFFFFFFF#32) ∧
      (lane s.pins.inA i = 0x80000000#32 → lane z i = 0#32)) ∧
    nz = ~~~z ∧
    ∀ (n : Nat) (a b c : Vec n), operationResult .cmpz ⟨a, b, c⟩ = operationResult .cmpeq ⟨a, 0#_, c⟩ ∧
      operationResult .cmpnz ⟨a, b, c⟩ = operationResult .cmpne ⟨a, 0#_, c⟩

/-- R72, R73: the reductions test every lane for non-zero on every bit pattern, put the boolean on `T`, and its
broadcast mask on `Y`; with one lane, `ALL` is the test of lane 0. -/
def Obligations.ReductionsTestEveryLane : Prop :=
  encode .all = 0x00000018#32 ∧ encode .any = 0x00000019#32 ∧
  (∀ o : Operands 1, (operationResult .all o).t = true ↔ lane o.a 0 ≠ 0#32) ∧
  ∀ s : State, ∃ t u : Bool,
    exec .all s = .next (s.deliver ⟨.ok, if t then BitVec.allOnes 128 else 0#128, t⟩) ∧
    exec .any s = .next (s.deliver ⟨.ok, if u then BitVec.allOnes 128 else 0#128, u⟩) ∧
    (t = true ↔ ∀ i, i < 4 → lane s.pins.inA i ≠ 0#32) ∧ (u = true ↔ ∃ i, i < 4 ∧ lane s.pins.inA i ≠ 0#32)

/-- The mask laws of R75, items 1 to 5, for vectors of any number of lanes. -/
def Obligations.MaskLaws : Prop :=
  ∀ (n : Nat) (a b c : Vec n),
    (∀ i ∈ [Instr.cmpeq, .cmpne, .cmpgt, .cmpge, .cmplt, .cmple, .cmpz, .cmpnz],
      IsMask (operationResult i ⟨a, b, c⟩).y) ∧
    (operationResult .cmpne ⟨a, b, c⟩).y = ~~~(operationResult .cmpeq ⟨a, b, c⟩).y ∧
    (operationResult .cmpge ⟨a, b, c⟩).y = ~~~(operationResult .cmplt ⟨a, b, c⟩).y ∧
    (operationResult .cmple ⟨a, b, c⟩).y = ~~~(operationResult .cmpgt ⟨a, b, c⟩).y ∧
    operationResult .cmplt ⟨a, b, c⟩ = operationResult .cmpgt ⟨b, a, c⟩ ∧
    operationResult .cmple ⟨a, b, c⟩ = operationResult .cmpge ⟨b, a, c⟩ ∧
    (∀ k, k < n →
      ([Instr.cmplt, .cmpeq, .cmpgt].filter fun i => lane (operationResult i ⟨a, b, c⟩).y k == onesWord).length = 1) ∧
    (IsMask a → ((operationResult .all ⟨a, b, c⟩).t = true ↔ (operationResult .any ⟨~~~a, b, c⟩).t = false))

/-! ### Arithmetic -/

/-- R76: `ADD` wraps modulo 2^32, the same as unsigned addition, and commutes. -/
def Obligations.AddWraps : Prop :=
  encode .add = 0x00000020#32 ∧
  ∀ s : State, ∃ y : Vec 4, exec .add s = .next (s.deliver ⟨.ok, y, false⟩) ∧
    (∀ i, i < 4 →
      (lane y i).toInt % 2 ^ 32 = ((lane s.pins.inA i).toInt + (lane s.pins.inB i).toInt) % 2 ^ 32 ∧
      (lane y i).toNat = ((lane s.pins.inA i).toNat + (lane s.pins.inB i).toNat) % 2 ^ 32 ∧
      (lane s.pins.inA i = 0x7FFFFFFF#32 → lane s.pins.inB i = 1#32 → lane y i = 0x80000000#32) ∧
      (lane s.pins.inA i = 0x80000000#32 → lane s.pins.inB i = 0xFFFFFFFF#32 → lane y i = 0x7FFFFFFF#32)) ∧
    (∀ o : Operands 4, operationResult .add o = operationResult .add o.swap)

/-- R77: `SUB` is A minus B modulo 2^32. -/
def Obligations.SubWraps : Prop :=
  encode .sub = 0x00000021#32 ∧
  ∀ s : State, ∃ y : Vec 4, exec .sub s = .next (s.deliver ⟨.ok, y, false⟩) ∧
    (∀ i, i < 4 →
      (lane y i).toInt % 2 ^ 32 = ((lane s.pins.inA i).toInt - (lane s.pins.inB i).toInt) % 2 ^ 32 ∧
      (lane s.pins.inA i = 0x80000000#32 → lane s.pins.inB i = 1#32 → lane y i = 0x7FFFFFFF#32) ∧
      (lane s.pins.inA i = 0x7FFFFFFF#32 → lane s.pins.inB i = 0xFFFFFFFF#32 → lane y i = 0x80000000#32) ∧
      (lane s.pins.inA i = 0#32 → lane s.pins.inB i = 0x80000000#32 → lane y i = 0x80000000#32)) ∧
    (s.pins.inA = s.pins.inB → y = 0#_)

/-- R78, R83: `NEG` wraps and `QNEG` clamps; they differ at `MIN32` alone. -/
def Obligations.NegateWrapsAndSaturates : Prop :=
  encode .neg = 0x00000022#32 ∧ encode .qneg = 0x00000027#32 ∧
  ∀ s : State, ∃ y q : Vec 4,
    exec .neg s = .next (s.deliver ⟨.ok, y, false⟩) ∧ exec .qneg s = .next (s.deliver ⟨.ok, q, false⟩) ∧
    ∀ i, i < 4 →
      (lane y i).toInt % 2 ^ 32 = (-(lane s.pins.inA i).toInt) % 2 ^ 32 ∧
      (lane q i).toInt = min (max (-(lane s.pins.inA i).toInt) (-2147483648)) 2147483647 ∧
      (lane s.pins.inA i = 0x80000000#32 → lane y i = 0x80000000#32 ∧ lane q i = 0x7FFFFFFF#32) ∧
      (lane s.pins.inA i ≠ 0x80000000#32 → lane y i = lane q i) ∧
      (lane s.pins.inA i = 0#32 → lane y i = 0#32 ∧ lane q i = 0#32) ∧
      (lane s.pins.inA i = 0x7FFFFFFF#32 → lane y i = 0x80000001#32 ∧ lane q i = 0x80000001#32)

/-- R79: `RHADD` is the exact half-sum rounded to nearest with ties toward plus infinity: twice the result is the sum,
or the sum plus one where the sum is odd. It never wraps; `RHADD(a, a) = a`; it commutes. -/
def Obligations.HalfSumRoundsUp : Prop :=
  encode .rhadd = 0x00000023#32 ∧
  ∀ s : State, ∃ y : Vec 4, exec .rhadd s = .next (s.deliver ⟨.ok, y, false⟩) ∧
    (∀ i, i < 4 →
      (2 * (lane y i).toInt = (lane s.pins.inA i).toInt + (lane s.pins.inB i).toInt ∨
        2 * (lane y i).toInt = (lane s.pins.inA i).toInt + (lane s.pins.inB i).toInt + 1) ∧
      (lane s.pins.inA i = lane s.pins.inB i → lane y i = lane s.pins.inA i) ∧
      (lane s.pins.inA i = 0x7FFFFFFF#32 → lane s.pins.inB i = 0x80000000#32 → lane y i = 0#32) ∧
      (lane s.pins.inA i = 3#32 → lane s.pins.inB i = 0#32 → lane y i = 2#32) ∧
      (lane s.pins.inA i = 0xFFFFFFFD#32 → lane s.pins.inB i = 0#32 → lane y i = 0xFFFFFFFF#32)) ∧
    (∀ o : Operands 4, operationResult .rhadd o = operationResult .rhadd o.swap)

/-- R80: `QRDMULH` is the high half of the exact doubled product, rounded to nearest with ties toward plus infinity,
and `MAX32` at the one saturation corner. No other pair saturates, and no pair gives `MIN32`. -/
def Obligations.MultiplyHighRounds : Prop :=
  encode .qrdmulh = 0x00000024#32 ∧
  ∀ s : State, ∃ y : Vec 4, exec .qrdmulh s = .next (s.deliver ⟨.ok, y, false⟩) ∧
    (∀ i, i < 4 →
      (lane s.pins.inA i = 0x80000000#32 → lane s.pins.inB i = 0x80000000#32 → lane y i = 0x7FFFFFFF#32) ∧
      (¬ (lane s.pins.inA i = 0x80000000#32 ∧ lane s.pins.inB i = 0x80000000#32) →
        2 ^ 32 * (lane y i).toInt ≤ 2 * (lane s.pins.inA i).toInt * (lane s.pins.inB i).toInt + 2 ^ 31 ∧
        2 * (lane s.pins.inA i).toInt * (lane s.pins.inB i).toInt + 2 ^ 31 < 2 ^ 32 * ((lane y i).toInt + 1)) ∧
      lane y i ≠ 0x80000000#32 ∧
      (lane s.pins.inA i = 0x80000000#32 → lane s.pins.inB i = 0x80000001#32 → lane y i = 0x7FFFFFFF#32) ∧
      (lane s.pins.inA i = 0x80000000#32 → lane s.pins.inB i = 0x7FFFFFFF#32 → lane y i = 0x80000001#32) ∧
      (lane s.pins.inA i = 0x7FFFFFFF#32 → lane s.pins.inB i = 0x7FFFFFFF#32 → lane y i = 0x7FFFFFFE#32) ∧
      (lane s.pins.inB i = 0#32 → lane y i = 0#32) ∧
      (lane s.pins.inA i = 1#32 → lane s.pins.inB i = 0x40000000#32 → lane y i = 1#32) ∧
      (lane s.pins.inA i = 0xFFFFFFFF#32 → lane s.pins.inB i = 0x40000000#32 → lane y i = 0#32) ∧
      (lane s.pins.inA i = 0x80000000#32 → lane s.pins.inB i = 0xFFFFFFFF#32 → lane y i = 1#32)) ∧
    (∀ o : Operands 4, operationResult .qrdmulh o = operationResult .qrdmulh o.swap)

/-- R81: `QADD` clamps the exact sum to `[MIN32, MAX32]`, equals `ADD` where the sum is in range, and commutes. -/
def Obligations.AddSaturates : Prop :=
  encode .qadd = 0x00000025#32 ∧
  ∀ s : State, ∃ y : Vec 4, exec .qadd s = .next (s.deliver ⟨.ok, y, false⟩) ∧
    (∀ i, i < 4 →
      ((lane s.pins.inA i).toInt + (lane s.pins.inB i).toInt > 2147483647 → lane y i = 0x7FFFFFFF#32) ∧
      ((lane s.pins.inA i).toInt + (lane s.pins.inB i).toInt < -2147483648 → lane y i = 0x80000000#32) ∧
      (-2147483648 ≤ (lane s.pins.inA i).toInt + (lane s.pins.inB i).toInt →
        (lane s.pins.inA i).toInt + (lane s.pins.inB i).toInt ≤ 2147483647 →
        (lane y i).toInt = (lane s.pins.inA i).toInt + (lane s.pins.inB i).toInt ∧
        lane y i = lane s.pins.inA i + lane s.pins.inB i)) ∧
    (∀ o : Operands 4, operationResult .qadd o = operationResult .qadd o.swap)

/-- R82: `QSUB` clamps the exact difference A minus B to `[MIN32, MAX32]`. -/
def Obligations.SubSaturates : Prop :=
  encode .qsub = 0x00000026#32 ∧
  ∀ s : State, ∃ y : Vec 4, exec .qsub s = .next (s.deliver ⟨.ok, y, false⟩) ∧
    (∀ i, i < 4 →
      ((lane s.pins.inA i).toInt - (lane s.pins.inB i).toInt > 2147483647 → lane y i = 0x7FFFFFFF#32) ∧
      ((lane s.pins.inA i).toInt - (lane s.pins.inB i).toInt < -2147483648 → lane y i = 0x80000000#32) ∧
      (-2147483648 ≤ (lane s.pins.inA i).toInt - (lane s.pins.inB i).toInt →
        (lane s.pins.inA i).toInt - (lane s.pins.inB i).toInt ≤ 2147483647 →
        (lane y i).toInt = (lane s.pins.inA i).toInt - (lane s.pins.inB i).toInt) ∧
      (lane s.pins.inA i = 0#32 → lane s.pins.inB i = 0x80000000#32 → lane y i = 0x7FFFFFFF#32) ∧
      (lane s.pins.inA i = 0xFFFFFFFF#32 → lane s.pins.inB i = 0x7FFFFFFF#32 → lane y i = 0x80000000#32) ∧
      (lane s.pins.inA i = 0xFFFFFFFE#32 → lane s.pins.inB i = 0x7FFFFFFF#32 → lane y i = 0x80000000#32)) ∧
    (s.pins.inA = s.pins.inB → y = 0#_)

/-- R85: the sign of `QRDMULH` follows the signs of its operands, and a zero operand gives 0. -/
def Obligations.MultiplyHighSigns : Prop :=
  ∀ (n : Nat) (o : Operands n) (i : Nat), i < n →
    (0 ≤ (lane o.a i).toInt → 0 ≤ (lane o.b i).toInt → 0 ≤ (lane (operationResult .qrdmulh o).y i).toInt) ∧
    ((lane o.a i).toInt ≤ 0 → (lane o.b i).toInt ≤ 0 → 0 ≤ (lane (operationResult .qrdmulh o).y i).toInt) ∧
    (0 ≤ (lane o.a i).toInt → (lane o.b i).toInt ≤ 0 → (lane (operationResult .qrdmulh o).y i).toInt ≤ 0) ∧
    ((lane o.a i).toInt ≤ 0 → 0 ≤ (lane o.b i).toInt → (lane (operationResult .qrdmulh o).y i).toInt ≤ 0) ∧
    (lane o.a i = 0#32 ∨ lane o.b i = 0#32 → lane (operationResult .qrdmulh o).y i = 0#32)

/-- R86: the same value on A and B. -/
def Obligations.RepeatedOperands : Prop :=
  ∀ (n : Nat) (a c : Vec n),
    operationResult .sub ⟨a, a, c⟩ = ⟨.ok, 0#_, false⟩ ∧ operationResult .qsub ⟨a, a, c⟩ = ⟨.ok, 0#_, false⟩ ∧
    operationResult .rhadd ⟨a, a, c⟩ = ⟨.ok, a, false⟩ ∧
    ∀ i, i < n →
      lane (operationResult .add ⟨a, a, c⟩).y i = BitVec.ofInt 32 (2 * (lane a i).toInt) ∧
      (lane (operationResult .qadd ⟨a, a, c⟩).y i).toInt =
        min (max (2 * (lane a i).toInt) (-2147483648)) 2147483647 ∧
      0 ≤ (lane (operationResult .qrdmulh ⟨a, a, c⟩).y i).toInt

/-! ### Power-of-two scaling and broadcast -/

/-- R87, R88, R90: the word of `POT #e`; for `e` from 1 to 31 the exact product clamped; for `e = 0` the operand
unchanged. At `e = 31`, -1 gives `MIN32` exactly and every other non-zero lane saturates. -/
def Obligations.PotScalesUpSaturating : Prop :=
  (∀ e : Int, -32 ≤ e → e ≤ 31 → encode (.pot e) = 0x00000030#32 ||| BitVec.ofNat 32 ((e % 64).toNat * 256)) ∧
  (∀ s : State, exec (.pot 0) s = .next (s.deliver ⟨.ok, s.pins.inA, false⟩)) ∧
  (∀ (s : State) (e : Int), 1 ≤ e → e ≤ 31 →
    ∃ y : Vec 4, exec (.pot e) s = .next (s.deliver ⟨.ok, y, false⟩) ∧
      ∀ i, i < 4 →
        ((lane s.pins.inA i).toInt * 2 ^ e.toNat > 2147483647 → lane y i = 0x7FFFFFFF#32) ∧
        ((lane s.pins.inA i).toInt * 2 ^ e.toNat < -2147483648 → lane y i = 0x80000000#32) ∧
        (-2147483648 ≤ (lane s.pins.inA i).toInt * 2 ^ e.toNat →
          (lane s.pins.inA i).toInt * 2 ^ e.toNat ≤ 2147483647 →
          (lane y i).toInt = (lane s.pins.inA i).toInt * 2 ^ e.toNat) ∧
        (e = 31 → (lane s.pins.inA i).toInt < 0 → lane y i = 0x80000000#32) ∧
        (e = 31 → 0 < (lane s.pins.inA i).toInt → lane y i = 0x7FFFFFFF#32))

/-- R87, R89: for `e` from -32 to -1, `POT #e` divides by `2^n`, `n = -e`, rounding to nearest with ties toward plus
infinity, on the exact sum; the result lies in `[-2^(31-n), 2^(31-n)]`, so it never saturates. At `n = 32` it is 0. -/
def Obligations.PotScalesDownRounding : Prop :=
  ∀ (s : State) (n : Nat), 1 ≤ n → n ≤ 32 →
    ∃ y : Vec 4, exec (.pot (-n)) s = .next (s.deliver ⟨.ok, y, false⟩) ∧
      ∀ i, i < 4 →
        2 ^ n * (lane y i).toInt ≤ (lane s.pins.inA i).toInt + 2 ^ (n - 1) ∧
        (lane s.pins.inA i).toInt + 2 ^ (n - 1) < 2 ^ n * ((lane y i).toInt + 1) ∧
        (n ≤ 31 → -2 ^ (31 - n) ≤ (lane y i).toInt ∧ (lane y i).toInt ≤ 2 ^ (31 - n)) ∧
        (n = 32 → lane y i = 0#32) ∧
        (n = 1 → lane s.pins.inA i = 3#32 → lane y i = 2#32) ∧
        (n = 1 → lane s.pins.inA i = 0xFFFFFFFD#32 → lane y i = 0xFFFFFFFF#32)

/-- R91, R92: `DUP` copies lane 0 of A to every lane, bit for bit; it is the identity on one lane; and `ALL` of
`CMPEQ` of it with itself is true for any number of lanes. -/
def Obligations.DupBroadcastsLaneZero : Prop :=
  encode .dup = 0x00000040#32 ∧
  (∀ s : State, ∃ y : Vec 4, exec .dup s = .next (s.deliver ⟨.ok, y, false⟩) ∧
    ∀ i, i < 4 → lane y i = lane s.pins.inA 0) ∧
  (∀ o : Operands 1, (operationResult .dup o).y = o.a) ∧
  (∀ (n : Nat) (o : Operands n) (c : Vec n),
    (operationResult .cmpeq ⟨(operationResult .dup o).y, (operationResult .dup o).y, c⟩).y = BitVec.allOnes _ ∧
    (operationResult .all ⟨(operationResult .cmpeq ⟨(operationResult .dup o).y, (operationResult .dup o).y, c⟩).y,
      c, c⟩).t = true)

/-- R8, R12: lane for lane, the vector configuration gives what the scalar configuration gives, in every operation
that acts on each lane independently (all but the two reductions and `DUP`). -/
def Obligations.ScalarAndVectorAgree : Prop :=
  ∀ (n : Nat) (i : Instr) (o : Operands n) (k : Nat), k < n → i ≠ .all → i ≠ .any → i ≠ .dup →
    lane (operationResult i o).y k = lane (operationResult i (o.laneOnly k)).y 0 ∧
    (operationResult i o).s = (operationResult i (o.laneOnly k)).s ∧
    (operationResult i o).t = (operationResult i (o.laneOnly k)).t

/-! ### Programs -/

/-- R55: every pseudo-instruction expands to lines that run, and gives exactly what its name says, with `T = 0`. The
names are the host's: `a` and `b` are captured, `dst` and `z` are new. -/
def Obligations.PseudoInstructionsAreExact : Prop :=
  ∀ (n : Nat) (p : Pseudo) (vals : Values n) (dst a b z : String) (va vb : Vec n),
    p.wellFormed = true → vals.vector a = some va → vals.vector b = some vb →
    vals.lookup dst = none → vals.lookup z = none → dst ≠ z →
    ∃ vals' y, runLines (p.expand dst a b z) vals = some vals' ∧ vals'.lookup dst = some ⟨.ok, y, false⟩ ∧
      match p with
      | .qshl k | .scaleup k => ∀ i, i < n → lane y i =
          BitVec.ofInt 32 (min (max ((lane va i).toInt * 2 ^ k) (-2147483648)) 2147483647)
      | .rshr m | .scaledown m => ∀ i, i < n → lane y i = BitVec.ofInt 32 (((lane va i).toInt + 2 ^ (m - 1)) / 2 ^ m)
      | .mov => y = va
      | .zero => y = 0#_
      | .ones => y = BitVec.allOnes _
      | .andn => y = va &&& ~~~vb

/-- R54: a line defines its name once, uses only captured names, and adds the result of its word on the values it
names, whatever the ports it does not list carry (R48): with one source for the nine operations that read A alone, with
two for every operation but `SEL`, with three for every word, and with none to three for a word that does not decode
(R95). The model's own (notes/assumptions/13): a line that lists fewer sources than its word reads, or more than
three, does not run, and one may list more than its word reads. -/
def Obligations.ProgramLinesUseCapturedValues : Prop :=
  ∀ (n : Nat) (l : Line) (vals : Values n),
    ((vals.lookup l.dst).isSome → l.run vals = none) ∧
    (∀ x ∈ l.srcs, vals.vector x = none → l.run vals = none) ∧
    (∀ x y z va vb vc, vals.lookup l.dst = none → l.srcs = [x, y, z] → vals.vector x = some va →
      vals.vector y = some vb → vals.vector z = some vc →
      l.run vals = some (vals ++ [(l.dst, operationFunction l.op ⟨va, vb, vc⟩)])) ∧
    (∀ x va i, vals.lookup l.dst = none → l.srcs = [x] → vals.vector x = some va →
      decode l.op = .legal i → reads i = [.a] →
      ∀ b c, l.run vals = some (vals ++ [(l.dst, operationFunction l.op ⟨va, b, c⟩)])) ∧
    (∀ x y va vb i, vals.lookup l.dst = none → l.srcs = [x, y] → vals.vector x = some va → vals.vector y = some vb →
      decode l.op = .legal i → i ≠ .sel →
      ∀ c, l.run vals = some (vals ++ [(l.dst, operationFunction l.op ⟨va, vb, c⟩)])) ∧
    (vals.lookup l.dst = none → (∀ x ∈ l.srcs, vals.vector x ≠ none) → l.srcs.length ≤ 3 →
      (decode l.op = .illegalOpcode → l.run vals = some (vals ++ [(l.dst, ⟨.illegalOpcode, 0#_, false⟩)])) ∧
      (decode l.op = .reservedField → l.run vals = some (vals ++ [(l.dst, ⟨.reservedField, 0#_, false⟩)]))) ∧
    (∀ i, decode l.op = .legal i → l.srcs.length < (reads i).length → l.run vals = none) ∧
    (3 < l.srcs.length → l.run vals = none)

/-! ### The clock edge -/

/-- R23: an operation is accepted at an edge exactly when `rst` is 0, `in_valid` is 1 and `in_ready` is 1, in a unit
that has been reset. It is then the last of the results in flight or presented; at any other edge with `rst` 0 nothing
is added, and at most one operation is accepted per edge. What is accepted is what the ports carry at that edge: later
levels (`s.host`) play no part. (Before the first reset nothing is accepted, and the order within an edge: the model's,
notes/assumptions/6 and 12.) -/
def Obligations.AcceptanceFollowsTheHandshake : Prop :=
  (∀ s : State, s.accepts = true ↔
    s.resetSeen = true ∧ s.pins.rst = false ∧ s.pins.inValid = true ∧ s.inReady = true) ∧
  (∀ lat s, s.accepts = true → ∃ t, clockEdge lat s = .next t ∧
    t.trace ++ t.pending =
      s.trace ++ s.pending ++ [operationFunction s.pins.inOp ⟨s.pins.inA, s.pins.inB, s.pins.inC⟩]) ∧
  (∀ lat s, s.accepts = false → s.pins.rst = false → ∃ t, clockEdge lat s = .next t ∧
    t.trace ++ t.pending = s.trace ++ s.pending) ∧
  (∀ lat s, s.pins.rst = true → ∃ t, clockEdge lat s = .next t ∧ t.trace ++ t.pending = s.trace) ∧
  (∀ lat s h t u, clockEdge lat s = .next t → clockEdge lat { s with host := h } = .next u →
    u = { t with pins := h.headD s.pins.withdrawn, host := h.tail })

/-- R24: `in_ready` is 0 in a cycle that begins at an edge with `rst` 1, and 1 in a cycle that begins at an edge with
`rst` 0, once the unit has been reset (R111; what the port carries before that is free, notes/assumptions/6). -/
def Obligations.ReadinessFollowsReset : Prop :=
  ∀ lat s, ∃ t, clockEdge lat s = .next t ∧ (s.pins.rst = true → t.inReady = false) ∧
    (s.pins.rst = false → s.resetSeen = true → t.inReady = true)

/-- R25: the result of the operation accepted at edge `k` is presented in the cycle that begins at edge
`k + LATENCY`, for every `LATENCY`, if no reset comes between: `lat` further edges after the accepting one, `out_valid`
is 1 and the outputs carry `Exec(OP, A, B, C)`. It joins the trace at that edge and not before, as the next result after
all older ones; so it is presented in exactly one cycle. (Where `host` is shorter than `lat`, the host's silence after
it is the model's, notes/assumptions/1.) -/
def Obligations.ResultAppearsAfterLatency : Prop :=
  ∀ lat s, UnitInv lat s → s.accepts = true → NoReset (s.host.take lat) →
    (∀ k, k ≤ lat → ∃ t, runEdges lat k s = .next t ∧ t.trace.length ≤ s.trace.length + s.pending.length) ∧
    ∃ t, runEdges lat (lat + 1) s = .next t ∧ t.outValid = true ∧
      t.outY = (operationFunction s.pins.inOp s.operands).y ∧
      t.outT = (operationFunction s.pins.inOp s.operands).t ∧
      t.outStatus = (operationFunction s.pins.inOp s.operands).s.code ∧
      t.trace = s.trace ++ s.pending ++ [operationFunction s.pins.inOp s.operands]

/-- R26, R29: over any number of edges with no reset, for every `LATENCY`, the results presented and still in flight
are, in order, those there were before followed by `Exec` of each operation offered, in the order of acceptance. So
every accepted operation gives exactly one result, which no other operation affects. (The host's silence after its list:
notes/assumptions/1.) -/
def Obligations.ResultsInAcceptanceOrder : Prop :=
  ∀ lat k s, s.resetSeen = true → s.inReady = true → NoReset (s.drives k) →
    ∃ t, runEdges lat k s = .next t ∧
      t.trace ++ t.pending = s.trace ++ s.pending ++
        ((s.drives k).filter Pins.inValid).map fun p => operationFunction p.inOp ⟨p.inA, p.inB, p.inC⟩

/-- R26, R27: an edge presents at most one result: either `out_valid` is 1 and the outputs carry the one result that
joined the trace, or `out_valid` is 0 and nothing did. -/
def Obligations.AtMostOneResultPerCycle : Prop :=
  ∀ lat s, s.resetSeen = true ∨ s.pins.rst = true →
    ∃ t, clockEdge lat s = .next t ∧
      ((t.outValid = false ∧ t.trace = s.trace ∧ t.capture = none) ∨
       ∃ r, t.outValid = true ∧ t.trace = s.trace ++ [r] ∧ t.capture = some (r.s.code, r.y, r.t))

/-- R9: no result depends on the value of `LATENCY`: with two latencies and the same drive, the results presented and
in flight are the same sequence, edge for edge, while no reset comes. -/
def Obligations.ResultsDoNotDependOnLatency : Prop :=
  ∀ lat lat' k s, NoReset (s.drives k) → s.resetSeen = true →
    ∃ t t', runEdges lat k s = .next t ∧ runEdges lat' k s = .next t' ∧
      t.trace ++ t.pending = t'.trace ++ t'.pending ∧ t.inReady = t'.inReady

/-- R27, R28: no edge reads the outputs or the free values: two states of a unit that has been reset which differ only
in what `out_valid`, `out_y`, `out_t` and `out_status` carry and in the counter of the free values give, after an edge,
the same results, the same results in flight, the same readiness, the same `out_valid` and the same capture. -/
def Obligations.OutputsAreNeverRead : Prop :=
  ∀ lat (s : State) v y b c k, s.resetSeen = true →
    ∃ t t', clockEdge lat s = .next t ∧
      clockEdge lat { s with outValid := v, outY := y, outT := b, outStatus := c, freeIndex := k } = .next t' ∧
      t.trace = t'.trace ∧ t.pipeline = t'.pipeline ∧ t.inReady = t'.inReady ∧ t.outValid = t'.outValid ∧
      t.capture = t'.capture ∧ t.pins = t'.pins ∧ t.host = t'.host ∧ t.resetSeen = t'.resetSeen

/-! ### Reset -/

/-- R108, R109: an edge that samples `rst` 1, in any state, makes `in_ready` and `out_valid` 0, leaves the other outputs
unspecified, empties the pipeline (R109) and accepts nothing, whatever is offered. That "unspecified" is the free value
at the state's counter is the model's DESIGN CHOICE (notes/assumptions/4). -/
def Obligations.ResetEdgeSilencesTheUnit : Prop :=
  ∀ lat s, s.pins.rst = true → s.accepts = false ∧
    ∃ t, clockEdge lat s = .next t ∧ t.inReady = false ∧ t.outValid = false ∧ t.pipeline = [] ∧
      t.trace = s.trace ∧ t.resetSeen = true ∧ t.outY = Config.freeY s.freeIndex ∧
      t.outT = Config.freeT s.freeIndex ∧ t.outStatus = Config.freeStatus s.freeIndex

/-- R109: an operation accepted at an edge is discarded if `rst` is sampled 1 at one of the next `LATENCY` edges: at
that edge the pipeline is empty and the trace holds only older results. With `LATENCY = 0` nothing is ever in flight
after an edge, so nothing can be discarded. (That holds before the first reset too by the model's reading,
notes/assumptions/6.) -/
def Obligations.ResetDiscardsOperationsInFlight : Prop :=
  (∀ lat s j p, UnitInv lat s → s.accepts = true → j + 1 ≤ lat → NoReset (s.host.take j) → s.host[j]? = some p →
    p.rst = true →
    ∃ t m, runEdges lat (j + 2) s = .next t ∧ t.pipeline = [] ∧ t.outValid = false ∧
      t.trace = s.trace ++ s.pending.take m) ∧
  (∀ s, UnitInv 0 s → ∃ t, clockEdge 0 s = .next t ∧ t.pipeline = [])

/-- R110, R112: from any state, power-up included, one edge with `rst` 1 followed by one with `rst` 0 brings the unit
to the state after reset: `in_ready` is 1, the pipeline is empty, `out_valid` is 0, and `out_valid` stays 0 while
nothing is offered. (The host's levels after its list: notes/assumptions/1.) -/
def Obligations.BootReachesTheResetState : Prop :=
  ∀ lat s p rest k, s.pins.rst = true → s.host = p :: rest → p.rst = false →
    NoReset (rest.take k) → NoOffer (rest.take k) →
    ∃ t u, runEdges lat 2 s = .next t ∧ t.inReady = true ∧ t.pipeline = [] ∧ t.outValid = false ∧
      t.resetSeen = true ∧ t.trace = s.trace ∧ t.pins = rest.headD p.withdrawn ∧ t.host = rest.tail ∧
      runEdges lat k t = .next u ∧ (∀ q ∈ [t, u], q.outValid = false ∧ q.pipeline = [] ∧ q.inReady = true)

/-- R111: before the first reset no edge makes the unit usable but one that samples `rst` 1: no offer is taken, no
result is recorded. (That no offer joins the pipeline is the model's reading, notes/assumptions/6.) -/
def Obligations.PowerUpNeedsAReset : Prop :=
  ∀ lat s, s.resetSeen = false → s.pins.rst = false →
    s.accepts = false ∧ ∃ t, clockEdge lat s = .next t ∧ t.resetSeen = false ∧ t.pipeline = s.pipeline ∧
      t.trace = s.trace

/-- The state after reset and the state at power-up meet the invariant, for every `LATENCY`; the state after reset has
the values of R110. Two things here are the model's DEDUCED readings: that the state after reset is the cycle that begins
at the edge `m` of R110 (notes/assumptions/2), and that nothing is in flight or presented before the first reset
(`UnitInv.poweredUp`, notes/assumptions/6; R111 itself says an offer then may be accepted). -/
def Obligations.ResetMeetsTheInvariant : Prop :=
  (∀ lat, UnitInv lat State.reset) ∧ (∀ lat, UnitInv lat State.powerUp) ∧ State.reset.inReady = true ∧
  State.reset.outValid = false ∧ State.reset.pipeline = [] ∧ State.reset.resetSeen = true ∧
  State.powerUp.resetSeen = false

/-- Every clock edge keeps the invariant, for every `LATENCY`; so does `step`. One clause of the invariant,
`UnitInv.poweredUp` (nothing in flight or presented before the first reset), is no rule: it is the model's DEDUCED reading of
notes/assumptions/6, and R111 itself says an offer then may be accepted. -/
def Obligations.EveryEdgeKeepsTheInvariant : Prop :=
  (∀ lat s t, UnitInv lat s → clockEdge lat s = .next t → UnitInv lat t) ∧
  (∀ s t, UnitInv Config.latency s → step s = .next t → UnitInv Config.latency t)

/-- R93, R74: what a valid cycle presents, in every state that meets the invariant, once the unit has been reset: never
the reserved status `0b11`; with a status other than `OK`, `Y` all zero and `T = 0`; `T = 1` only with the all-ones
`Y`. -/
def Obligations.PresentedStatusIsNeverReserved : Prop :=
  ∀ lat s, UnitInv lat s → s.resetSeen = true → s.outValid = true →
    s.outStatus ≠ 0b11#2 ∧ (s.outStatus ≠ 0b00#2 → s.outY = 0#_ ∧ s.outT = false) ∧
    (s.outT = true → s.outStatus = 0b00#2 ∧ s.outY = BitVec.allOnes _)

/-- R95, R97: the unit never stops: from every state, with every drive, every edge has a next state. -/
def Obligations.UnitNeverStops : Prop :=
  (∀ lat k s, ∃ t, runEdges lat k s = .next t) ∧ (∀ s, ∃ t, step s = .next t) ∧
  (∀ k s, ∃ t, Sys2Proof.core.run k s = .next t)

/-- R106, R117: when the host offers nothing for `LATENCY` edges, and no reset comes, every result in flight has been
presented, in order. (The host's silence after its list: notes/assumptions/1.) -/
def Obligations.PipelineDrainsInLatency : Prop :=
  ∀ lat s, UnitInv lat s → s.resetSeen = true → NoReset (s.drives lat) → NoOffer (s.drives lat) →
    ∃ t, runEdges lat lat s = .next t ∧ t.pipeline = [] ∧ t.trace = s.trace ++ s.pending

/-- R118: every clock edge is a sequence of steps of the time-free view: `reset` where `rst` is 1; else `accept` where
the edge accepts, then `present` or nothing. The FIFO is the pipeline's results, and what the view emits is what joins
the trace. (That `present` needs a pending result, and which state is the one after reset: the model's,
notes/assumptions/14 and 2.) -/
def Obligations.TimeFreeViewAdmitsEveryEdge : Prop :=
  State.reset.pending = [] ∧
  ∀ lat s, ∃ t acts emitted, clockEdge lat s = .next t ∧
    runView acts s.pending = some (t.pending, emitted) ∧ t.trace = s.trace ++ emitted ∧
    (s.pins.rst = true → acts = [.reset]) ∧
    (s.pins.rst = false → ∃ p, (p = [] ∨ p = [.present]) ∧
      acts = (if s.accepts then [.accept s.pins.inOp ⟨s.pins.inA, s.pins.inB, s.pins.inC⟩] else []) ++ p)
end

