-- ==== Sys2Proof/Laws/Decode.lean ====
section
/-! SUPPORT. The fields of a word, and what the decoder's answer says about them. -/

namespace Sys2Proof

open Machine

theorem opcField_toNat (op : BitVec 32) : (opcField op).toNat = opcNumber op := by
  simp [opcField, opcNumber]

theorem imm6Field_toNat (op : BitVec 32) : (imm6Field op).toNat = imm6Number op := by
  simp [imm6Field, imm6Number, Nat.shiftRight_eq_div_pow]

theorem rsvdField_toNat (op : BitVec 32) : (rsvdField op).toNat = rsvdNumber op := by
  have := op.isLt
  simp [rsvdField, rsvdNumber, Nat.shiftRight_eq_div_pow]
  omega

/-- A word is its three fields (R45). -/
theorem word_eq_fields (op : BitVec 32) : op = (rsvdField op).zeroExtend 32 <<< 14 |||
    ((imm6Field op).zeroExtend 32 <<< 8 ||| (opcField op).zeroExtend 32) := by
  apply BitVec.eq_of_getLsbD_eq
  intro j hj
  simp only [rsvdField, imm6Field, opcField, BitVec.getLsbD_or, BitVec.getLsbD_shiftLeft, BitVec.zeroExtend,
    BitVec.getLsbD_setWidth, BitVec.getLsbD_extractLsb']
  by_cases h1 : j < 8
  · simp [h1, hj]
    intros
    omega
  · by_cases h2 : j < 14
    · have h3 : 8 + (j - 8) = j := by omega
      have h4 : j - 8 < 6 := by omega
      have h5 : j - 8 < 32 := by omega
      simp [h1, h2, hj, h3, h4, h5]
    · have h3 : 14 + (j - 14) = j := by omega
      have h4 : j - 14 < 18 := by omega
      have h5 : j - 14 < 32 := by omega
      have h6 : ¬ j - 8 < 6 := by omega
      simp [h1, h2, hj, h3, h4, h5, h6]

/-- The 6-bit signed reading: its range, and that 6 bits give it back (R47). -/
theorem sint6_spec : ∀ v : BitVec 6, BitVec.ofInt 6 (sint6 v) = v ∧ -32 ≤ sint6 v ∧ sint6 v ≤ 31 ∧ sint6 v = v.toInt := by
  decide

/-- What the opcode map gives for an assigned `OPC`. -/
theorem opcodeSelects_some {opc : BitVec 8} {e : Int} {i : Instr} (h : opcodeSelects opc e = some i) :
    i.opcode = opc ∧ (opc ≠ 0x30#8 → i.imm6 = 0#6) ∧ (opc = 0x30#8 → i = .pot e) := by
  unfold opcodeSelects at h
  split at h <;> cases h <;>
    first
    | exact ⟨rfl, fun _ => rfl, fun h => absurd h (by decide)⟩
    | exact ⟨rfl, fun h => absurd rfl h, fun _ => rfl⟩

/-- The opcode map gives nothing exactly for the unassigned values (R51). -/
theorem opcodeSelects_none (opc : BitVec 8) (e : Int) : opcodeSelects opc e = none ↔ ¬ AssignedOpcode opc.toNat := by
  have h1 : (opcodeSelects opc e).isNone = (opcodeSelects opc 0).isNone := by unfold opcodeSelects; split <;> rfl
  have h2 : ∀ o : BitVec 8, (opcodeSelects o 0).isNone = true ↔ ¬ AssignedOpcode o.toNat := by decide
  rw [← h2, ← h1]
  simp

/-- What a legal word's fields are. -/
theorem decode_legal {op : BitVec 32} {i : Instr} (h : decode op = .legal i) :
    opcodeSelects (opcField op) (sint6 (imm6Field op)) = some i ∧ rsvdField op = 0#18 ∧
      (opcField op = 0x30#8 ∨ imm6Field op = 0#6) := by
  unfold decode at h
  split at h
  · cases h
  · rename_i j hj
    split at h
    · cases h
    · split at h
      · cases h
      · cases h
        exact ⟨hj, by tauto, by tauto⟩

end Sys2Proof
end

