-- ==== Sys2Proof/Laws/Ints.lean ====
section
/-! SUPPORT. The integers behind the lanes: ranges, and when 32 bits hold an exact result. -/

namespace Sys2Proof.Machine

theorem sint_ge (w : Word) : -2 ^ 31 ≤ sint w := by
  have := BitVec.le_toInt w
  simpa [sint] using this

theorem sint_le (w : Word) : sint w ≤ 2 ^ 31 - 1 := by
  have := BitVec.toInt_lt (x := w)
  simp [sint] at *
  omega

@[simp] theorem bits32_sint (w : Word) : bits32 (sint w) = w := BitVec.ofInt_toInt

/-- An exact result in range is kept whole by 32 bits. -/
theorem sint_bits32 {n : Int} (h1 : -2 ^ 31 ≤ n) (h2 : n ≤ 2 ^ 31 - 1) : sint (bits32 n) = n := by
  unfold sint bits32
  rw [BitVec.toInt_ofInt]
  exact Int.bmod_eq_of_le (by omega) (by omega)

theorem sint_bits32_emod (n : Int) : sint (bits32 n) % 2 ^ 32 = n % 2 ^ 32 := by
  unfold sint bits32
  rw [BitVec.toInt_ofInt]
  exact Int.bmod_emod

theorem clamp_ge (n : Int) : -2 ^ 31 ≤ clamp n := by unfold clamp; omega

theorem clamp_le (n : Int) : clamp n ≤ 2 ^ 31 - 1 := by unfold clamp; omega

/-- A clamped result is the clamped integer. -/
@[simp] theorem sint_bits32_clamp (n : Int) : sint (bits32 (clamp n)) = clamp n :=
  sint_bits32 (clamp_ge n) (clamp_le n)

theorem sint_injective {v w : Word} (h : sint v = sint w) : v = w := BitVec.eq_of_toInt_eq h

@[simp] theorem sint_min32 : sint min32 = -2 ^ 31 := by decide

@[simp] theorem sint_max32 : sint max32 = 2 ^ 31 - 1 := by decide

/-- The rounded half-sum never leaves the range (R79). -/
theorem sint_rhaddLane (a b : Word) : sint (rhaddLane a b) = (sint a + sint b + 1) / 2 := by
  have := sint_ge a; have := sint_ge b; have := sint_le a; have := sint_le b
  exact sint_bits32 (by omega) (by omega)

/-- Outside its saturation corner the rounded multiply-high never leaves the range, and never reaches `MIN32` (R80). -/
theorem sint_qrdmulhLane {a b : Word} (h : ¬ (a = min32 ∧ b = min32)) :
    sint (qrdmulhLane a b) = (2 * sint a * sint b + 2 ^ 31) / 2 ^ 32 ∧ -2 ^ 31 < sint (qrdmulhLane a b) := by
  have h1 := sint_ge a
  have h2 := sint_le a
  have h3 := sint_ge b
  have h4 := sint_le b
  have notMin : ∀ w : Word, w = min32 ∨ -2 ^ 31 < sint w := by
    intro w
    have := sint_ge w
    by_cases hw : sint w = -2 ^ 31
    · exact .inl (sint_injective (by rw [hw]; simp))
    · exact .inr (by omega)
  have key : sint a * sint b ≤ 2 ^ 62 - 2 ^ 31 ∧ -(2 ^ 62 - 2 ^ 31) ≤ sint a * sint b := by
    rcases notMin a with rfl | ha
    · rcases notMin b with rfl | hb
      · exact absurd ⟨rfl, rfl⟩ h
      · simp; omega
    · rcases notMin b with rfl | hb
      · simp; omega
      · constructor <;> nlinarith
  have hv : sint (qrdmulhLane a b) = (2 * sint a * sint b + 2 ^ 31) / 2 ^ 32 := by
    unfold qrdmulhLane
    rw [if_neg h, mul_assoc, sint_bits32] <;> omega
  exact ⟨hv, by rw [hv, mul_assoc]; omega⟩

/-- The rounding right shift never leaves the range (R89). -/
theorem sint_shiftDownLane {n : Nat} (hn : 1 ≤ n) (x : Word) :
    sint (shiftDownLane n x) = (sint x + 2 ^ (n - 1)) / 2 ^ n := by
  have h1 := sint_ge x
  have h2 := sint_le x
  obtain ⟨m, rfl⟩ : ∃ m, n = m + 1 := ⟨n - 1, by omega⟩
  have hp : (2 : Int) ^ (m + 1) = 2 * 2 ^ m := by rw [pow_succ]; ring
  have hm : (1 : Int) ≤ 2 ^ m := one_le_pow₀ (by norm_num)
  refine sint_bits32 ?_ ?_
  · rw [Nat.add_sub_cancel, Int.le_ediv_iff_mul_le (by omega), hp]
    nlinarith
  · have : (sint x + 2 ^ (m + 1 - 1)) / 2 ^ (m + 1) < 2 ^ 31 := by
      rw [Nat.add_sub_cancel, Int.ediv_lt_iff_lt_mul (by omega), hp]
      nlinarith
    omega

end Sys2Proof.Machine
end

