-- ==== Sys2Proof/Laws/Lanes.lean ====
section
/-! SUPPORT. Reading a lane of a vector that was written lane by lane, and equality of vectors lane by lane. -/

namespace Sys2Proof.Machine

theorem getLsbD_lane {n : Nat} (v : Vec n) (i j : Nat) :
    (lane v i).getLsbD j = (decide (j < 32) && v.getLsbD (32 * i + j)) := by
  simp [lane]

theorem getLsbD_ofLanes (n : Nat) (f : Nat → Word) (i j : Nat) (hi : i < n) (hj : j < 32) :
    (ofLanes n f).getLsbD (32 * i + j) = (f i).getLsbD j := by
  induction n with
  | zero => omega
  | succ n ih =>
    rw [ofLanes, BitVec.getLsbD_or, BitVec.getLsbD_shiftLeft, BitVec.getLsbD_setWidth, BitVec.getLsbD_setWidth]
    have h1 : 32 * i + j < 32 * (n + 1) := by omega
    by_cases h : i = n
    · subst h
      have h2 : (ofLanes i f).getLsbD (32 * i + j) = false := BitVec.getLsbD_of_ge _ _ (by omega)
      have h3 : ¬ 32 * i + j < 32 * i := by omega
      have h4 : j < 32 * (i + 1) := by omega
      simp only [h1, h2, h3, h4, Nat.add_sub_cancel_left, decide_true, decide_false, Bool.not_false, Bool.true_and,
        Bool.and_false, Bool.or_false]
    · have h2 : 32 * i + j < 32 * n := by omega
      simp only [h1, h2, ih (by omega), decide_true, Bool.not_true, Bool.and_false, Bool.false_and, Bool.false_or,
        Bool.true_and]

/-- Lane `i` of a vector written lane by lane is what was written there. -/
@[simp] theorem lane_ofLanes {n : Nat} {f : Nat → Word} {i : Nat} (h : i < n) : lane (ofLanes n f) i = f i := by
  apply BitVec.eq_of_getLsbD_eq
  intro j hj
  rw [getLsbD_lane, getLsbD_ofLanes n f i j h hj]
  simp [hj]

/-- Two vectors with the same lanes are equal. -/
theorem eq_of_lane_eq {n : Nat} {u v : Vec n} (h : ∀ i, i < n → lane u i = lane v i) : u = v := by
  apply BitVec.eq_of_getLsbD_eq
  intro j hj
  have hl := congrArg (fun w : Word => w.getLsbD (j % 32)) (h (j / 32) (by omega))
  have hd : 32 * (j / 32) + j % 32 = j := by omega
  simpa only [getLsbD_lane, Nat.mod_lt j (by decide : 32 > 0), decide_true, Bool.true_and, hd] using hl

@[simp] theorem lane_bcast {n : Nat} {v : Word} {i : Nat} (h : i < n) : lane (bcast v : Vec n) i = v :=
  lane_ofLanes h

@[simp] theorem lane_map1 {n : Nat} {f : Word → Word} {a : Vec n} {i : Nat} (h : i < n) :
    lane (map1 f a) i = f (lane a i) := lane_ofLanes h

@[simp] theorem lane_map2 {n : Nat} {f : Word → Word → Word} {a b : Vec n} {i : Nat} (h : i < n) :
    lane (map2 f a b) i = f (lane a i) (lane b i) := lane_ofLanes h

@[simp] theorem lane_and {n : Nat} (a b : Vec n) (i : Nat) : lane (a &&& b) i = lane a i &&& lane b i := by
  apply BitVec.eq_of_getLsbD_eq
  intro j hj
  simp only [getLsbD_lane, BitVec.getLsbD_and, hj, decide_true, Bool.true_and]

@[simp] theorem lane_or {n : Nat} (a b : Vec n) (i : Nat) : lane (a ||| b) i = lane a i ||| lane b i := by
  apply BitVec.eq_of_getLsbD_eq
  intro j hj
  simp only [getLsbD_lane, BitVec.getLsbD_or, hj, decide_true, Bool.true_and]

@[simp] theorem lane_xor {n : Nat} (a b : Vec n) (i : Nat) : lane (a ^^^ b) i = lane a i ^^^ lane b i := by
  apply BitVec.eq_of_getLsbD_eq
  intro j hj
  simp only [getLsbD_lane, BitVec.getLsbD_xor, hj, decide_true, Bool.true_and]

@[simp] theorem lane_not {n : Nat} (a : Vec n) {i : Nat} (h : i < n) : lane (~~~a) i = ~~~lane a i := by
  apply BitVec.eq_of_getLsbD_eq
  intro j hj
  have : 32 * i + j < 32 * n := by omega
  simp only [getLsbD_lane, BitVec.getLsbD_not, hj, this, decide_true, Bool.true_and]

/-- A scalar-configuration operand has the one lane it was made of. -/
@[simp] theorem lane_laneOnly (v : Word) : lane (ofLanes 1 fun _ => v) 0 = v := lane_ofLanes Nat.one_pos

@[simp] theorem lane_zero (n i : Nat) : lane (0#(32 * n)) i = 0#32 := by
  apply BitVec.eq_of_getLsbD_eq
  intro j _
  rw [getLsbD_lane]
  simp

@[simp] theorem lane_allOnes {n i : Nat} (h : i < n) : lane (BitVec.allOnes (32 * n)) i = onesWord := by
  apply BitVec.eq_of_getLsbD_eq
  intro j hj
  have hw : 32 * i + j < 32 * n := by omega
  rw [getLsbD_lane, show onesWord = BitVec.allOnes 32 by decide, BitVec.getLsbD_allOnes, BitVec.getLsbD_allOnes]
  simp [hj, hw]

/-- The vector of `ZERO` lanes is the all-zero vector. -/
theorem bcast_zeroWord (n : Nat) : (bcast zeroWord : Vec n) = 0#_ :=
  eq_of_lane_eq fun i h => by rw [lane_bcast h, lane_zero]; rfl

/-- The vector of `ONES` lanes is the all-ones vector. -/
theorem bcast_onesWord (n : Nat) : (bcast onesWord : Vec n) = BitVec.allOnes _ :=
  eq_of_lane_eq fun i h => by rw [lane_bcast h, lane_allOnes h]

/-- `mask` of a decision. -/
theorem mask_decide (p : Prop) [Decidable p] : mask (decide p) = if p then onesWord else zeroWord := by
  by_cases h : p <;> simp [h, mask]

theorem mask_isMaskLane (b : Bool) : IsMaskLane (mask b) := by
  cases b
  · exact .inr rfl
  · exact .inl rfl

end Sys2Proof.Machine
end

