-- ==== Sys2Proof/Laws/PerInstr.lean ====
section
/-! SUPPORT. Statements made for each instruction: the fields of its word. -/

/-- The operation word of an instruction has the instruction's `OPC` and `IMM6`, `RSVD = 0` (R45, R53), and an `OPC`
whose high nibble names its family (R46). -/
def Sys2Proof.Laws.FieldsOfTheWord.Statement (i : Sys2Proof.Instr) : Prop :=
  Sys2Proof.opcField (Sys2Proof.encode i) = i.opcode ∧ Sys2Proof.imm6Field (Sys2Proof.encode i) = i.imm6 ∧
    Sys2Proof.rsvdField (Sys2Proof.encode i) = 0#18 ∧ i.opcode.extractLsb' 4 4 = i.family.nibble

namespace Sys2Proof.Laws.FieldsOfTheWord

theorem and : Statement Instr.and := by unfold Statement; decide
theorem or : Statement Instr.or := by unfold Statement; decide
theorem xor : Statement Instr.xor := by unfold Statement; decide
theorem not : Statement Instr.not := by unfold Statement; decide
theorem sel : Statement Instr.sel := by unfold Statement; decide
theorem cmpeq : Statement Instr.cmpeq := by unfold Statement; decide
theorem cmpne : Statement Instr.cmpne := by unfold Statement; decide
theorem cmpgt : Statement Instr.cmpgt := by unfold Statement; decide
theorem cmpge : Statement Instr.cmpge := by unfold Statement; decide
theorem cmplt : Statement Instr.cmplt := by unfold Statement; decide
theorem cmple : Statement Instr.cmple := by unfold Statement; decide
theorem cmpz : Statement Instr.cmpz := by unfold Statement; decide
theorem cmpnz : Statement Instr.cmpnz := by unfold Statement; decide
theorem all : Statement Instr.all := by unfold Statement; decide
theorem any : Statement Instr.any := by unfold Statement; decide
theorem add : Statement Instr.add := by unfold Statement; decide
theorem sub : Statement Instr.sub := by unfold Statement; decide
theorem neg : Statement Instr.neg := by unfold Statement; decide
theorem rhadd : Statement Instr.rhadd := by unfold Statement; decide
theorem qrdmulh : Statement Instr.qrdmulh := by unfold Statement; decide
theorem qadd : Statement Instr.qadd := by unfold Statement; decide
theorem qsub : Statement Instr.qsub := by unfold Statement; decide
theorem qneg : Statement Instr.qneg := by unfold Statement; decide
theorem pot (e : Int) : Statement (Instr.pot e) := by
  have h : ∀ v : BitVec 6, opcField (v.zeroExtend 32 <<< 8 ||| (0x30#8).zeroExtend 32) = 0x30#8 ∧
      imm6Field (v.zeroExtend 32 <<< 8 ||| (0x30#8).zeroExtend 32) = v ∧
      rsvdField (v.zeroExtend 32 <<< 8 ||| (0x30#8).zeroExtend 32) = 0#18 := by decide
  exact ⟨(h _).1, (h _).2.1, (h _).2.2, show (0x30#8).extractLsb' 4 4 = 0x3#4 by decide⟩
theorem dup : Statement Instr.dup := by unfold Statement; decide
end Sys2Proof.Laws.FieldsOfTheWord
end

