-- ==== Sys2Proof/Laws/Program.lean ====
section
/-! SUPPORT. Everything a program line can do, said once. -/

namespace Sys2Proof.Machine

/-- A line runs exactly when its name is new, it lists every operand its word reads, and its sources give operands; it
then adds the word's result under its name. -/
theorem Line.run_eq_some_iff {n : Nat} {l : Line} {vals vals' : Values n} :
    l.run vals = some vals' ↔
      vals.lookup l.dst = none ∧ operandCount l.op ≤ l.srcs.length ∧
      ∃ o, vals.operands l.srcs = some o ∧ vals' = vals ++ [(l.dst, operationFunction l.op o)] := by
  unfold Line.run
  cases h : vals.lookup l.dst <;> by_cases hc : l.srcs.length < operandCount l.op <;>
    simp [hc, eq_comm]
  omega

/-- A legal word reads as many operands as its operation reads ports (R48). -/
theorem operandCount_legal {op : BitVec 32} {i : Instr} (h : decode op = .legal i) :
    operandCount op = (reads i).length := by
  simp [operandCount, h]

/-- No word reads more than the three operand ports (R19). -/
theorem operandCount_le (op : BitVec 32) : operandCount op ≤ 3 := by
  unfold operandCount
  split
  · rename_i i _; cases i <;> simp [reads]
  all_goals omega

end Sys2Proof.Machine
end

