-- ==== Sys2Proof/Laws/State.lean ====
section
/-! SUPPORT. What each update of the state does to each field, one lemma per field and update. -/

namespace Sys2Proof.Machine

variable (s : State) (r : Result Config.lanes) (v : Bool) (lat : Nat) (op : BitVec 32)

/-! ### `deliver` -/
@[simp] theorem State.deliver_pins : (s.deliver r).pins = s.pins := rfl
@[simp] theorem State.deliver_host : (s.deliver r).host = s.host := rfl
@[simp] theorem State.deliver_resetSeen : (s.deliver r).resetSeen = s.resetSeen := rfl
@[simp] theorem State.deliver_inReady : (s.deliver r).inReady = s.inReady := rfl
@[simp] theorem State.deliver_pipeline : (s.deliver r).pipeline = s.pipeline ++ [⟨r, 0⟩] := rfl
@[simp] theorem State.deliver_outValid : (s.deliver r).outValid = s.outValid := rfl
@[simp] theorem State.deliver_outY : (s.deliver r).outY = s.outY := rfl
@[simp] theorem State.deliver_outT : (s.deliver r).outT = s.outT := rfl
@[simp] theorem State.deliver_outStatus : (s.deliver r).outStatus = s.outStatus := rfl
@[simp] theorem State.deliver_trace : (s.deliver r).trace = s.trace := rfl
@[simp] theorem State.deliver_freeIndex : (s.deliver r).freeIndex = s.freeIndex := rfl
@[simp] theorem State.deliver_pending : (s.deliver r).pending = s.pending ++ [r] := by simp [State.pending]

/-! ### `tick` -/
@[simp] theorem State.tick_pins : s.tick.pins = s.pins := rfl
@[simp] theorem State.tick_host : s.tick.host = s.host := rfl
@[simp] theorem State.tick_resetSeen : s.tick.resetSeen = s.resetSeen := rfl
@[simp] theorem State.tick_inReady : s.tick.inReady = s.inReady := rfl
@[simp] theorem State.tick_pipeline : s.tick.pipeline = s.pipeline.map Entry.older := rfl
@[simp] theorem State.tick_outValid : s.tick.outValid = s.outValid := rfl
@[simp] theorem State.tick_outY : s.tick.outY = s.outY := rfl
@[simp] theorem State.tick_outT : s.tick.outT = s.outT := rfl
@[simp] theorem State.tick_outStatus : s.tick.outStatus = s.outStatus := rfl
@[simp] theorem State.tick_trace : s.tick.trace = s.trace := rfl
@[simp] theorem State.tick_freeIndex : s.tick.freeIndex = s.freeIndex := rfl
@[simp] theorem State.tick_pending : s.tick.pending = s.pending := by
  simp only [State.pending, State.tick_pipeline, List.map_map]
  rfl
@[simp] theorem State.tick_operands : s.tick.operands = s.operands := rfl

/-! ### `driveUnspecified` and `driveResult` -/
@[simp] theorem State.driveUnspecified_pins : (s.driveUnspecified v).pins = s.pins := rfl
@[simp] theorem State.driveUnspecified_host : (s.driveUnspecified v).host = s.host := rfl
@[simp] theorem State.driveUnspecified_resetSeen : (s.driveUnspecified v).resetSeen = s.resetSeen := rfl
@[simp] theorem State.driveUnspecified_inReady : (s.driveUnspecified v).inReady = s.inReady := rfl
@[simp] theorem State.driveUnspecified_pipeline : (s.driveUnspecified v).pipeline = s.pipeline := rfl
@[simp] theorem State.driveUnspecified_outValid : (s.driveUnspecified v).outValid = v := rfl
@[simp] theorem State.driveUnspecified_trace : (s.driveUnspecified v).trace = s.trace := rfl
@[simp] theorem State.driveUnspecified_freeIndex : (s.driveUnspecified v).freeIndex = s.freeIndex + 1 := rfl
@[simp] theorem State.driveResult_pins : (s.driveResult r).pins = s.pins := rfl
@[simp] theorem State.driveResult_host : (s.driveResult r).host = s.host := rfl
@[simp] theorem State.driveResult_resetSeen : (s.driveResult r).resetSeen = s.resetSeen := rfl
@[simp] theorem State.driveResult_inReady : (s.driveResult r).inReady = s.inReady := rfl
@[simp] theorem State.driveResult_pipeline : (s.driveResult r).pipeline = s.pipeline := rfl
@[simp] theorem State.driveResult_outValid : (s.driveResult r).outValid = true := rfl
@[simp] theorem State.driveResult_outY : (s.driveResult r).outY = r.y := rfl
@[simp] theorem State.driveResult_outT : (s.driveResult r).outT = r.t := rfl
@[simp] theorem State.driveResult_outStatus : (s.driveResult r).outStatus = r.s.code := rfl
@[simp] theorem State.driveResult_trace : (s.driveResult r).trace = s.trace ++ [r] := rfl
@[simp] theorem State.driveResult_freeIndex : (s.driveResult r).freeIndex = s.freeIndex := rfl

/-! ### `nextPins` -/
@[simp] theorem State.nextPins_resetSeen : s.nextPins.resetSeen = s.resetSeen := by unfold nextPins; split <;> rfl
@[simp] theorem State.nextPins_inReady : s.nextPins.inReady = s.inReady := by unfold nextPins; split <;> rfl
@[simp] theorem State.nextPins_pipeline : s.nextPins.pipeline = s.pipeline := by unfold nextPins; split <;> rfl
@[simp] theorem State.nextPins_outValid : s.nextPins.outValid = s.outValid := by unfold nextPins; split <;> rfl
@[simp] theorem State.nextPins_outY : s.nextPins.outY = s.outY := by unfold nextPins; split <;> rfl
@[simp] theorem State.nextPins_outT : s.nextPins.outT = s.outT := by unfold nextPins; split <;> rfl
@[simp] theorem State.nextPins_outStatus : s.nextPins.outStatus = s.outStatus := by unfold nextPins; split <;> rfl
@[simp] theorem State.nextPins_trace : s.nextPins.trace = s.trace := by unfold nextPins; split <;> rfl
@[simp] theorem State.nextPins_freeIndex : s.nextPins.freeIndex = s.freeIndex := by unfold nextPins; split <;> rfl
@[simp] theorem State.nextPins_pending : s.nextPins.pending = s.pending := by simp [State.pending]
@[simp] theorem State.nextPins_pins : s.nextPins.pins = s.host.headD s.pins.withdrawn := by
  unfold nextPins; split <;> simp [*]
@[simp] theorem State.nextPins_host : s.nextPins.host = s.host.tail := by unfold nextPins; split <;> simp [*]
@[simp] theorem Pins.withdrawn_rst (p : Pins) : p.withdrawn.rst = false := rfl
@[simp] theorem Pins.withdrawn_inValid (p : Pins) : p.withdrawn.inValid = false := rfl

/-! ### `present` and `finishEdge`: what both cases leave alone -/
@[simp] theorem State.present_pins : (s.present lat).pins = s.pins := by unfold present; split <;> [rfl; split <;> rfl]
@[simp] theorem State.present_host : (s.present lat).host = s.host := by unfold present; split <;> [rfl; split <;> rfl]
@[simp] theorem State.present_resetSeen : (s.present lat).resetSeen = s.resetSeen := by
  unfold present; split <;> [rfl; split <;> rfl]
@[simp] theorem State.present_inReady : (s.present lat).inReady = s.inReady := by
  unfold present; split <;> [rfl; split <;> rfl]
@[simp] theorem State.finishEdge_resetSeen : (s.finishEdge lat).resetSeen = s.resetSeen := by simp [finishEdge]
@[simp] theorem State.finishEdge_inReady : (s.finishEdge lat).inReady = true := by simp [finishEdge]
@[simp] theorem State.finishEdge_pipeline : (s.finishEdge lat).pipeline = (s.present lat).pipeline := by
  simp [finishEdge]
@[simp] theorem State.finishEdge_pending : (s.finishEdge lat).pending = (s.present lat).pending := by
  simp [State.pending]
@[simp] theorem State.finishEdge_trace : (s.finishEdge lat).trace = (s.present lat).trace := by simp [finishEdge]
@[simp] theorem State.finishEdge_outValid : (s.finishEdge lat).outValid = (s.present lat).outValid := by
  simp [finishEdge]
@[simp] theorem State.finishEdge_outY : (s.finishEdge lat).outY = (s.present lat).outY := by simp [finishEdge]
@[simp] theorem State.finishEdge_outT : (s.finishEdge lat).outT = (s.present lat).outT := by simp [finishEdge]
@[simp] theorem State.finishEdge_outStatus : (s.finishEdge lat).outStatus = (s.present lat).outStatus := by
  simp [finishEdge]
@[simp] theorem State.finishEdge_pins : (s.finishEdge lat).pins = s.host.headD s.pins.withdrawn := by
  simp [finishEdge]
@[simp] theorem State.finishEdge_host : (s.finishEdge lat).host = s.host.tail := by simp [finishEdge]

/-! ### `resetEdge` and `powerUpEdge` -/
@[simp] theorem State.resetEdge_resetSeen : s.resetEdge.resetSeen = true := by simp [resetEdge]
@[simp] theorem State.resetEdge_inReady : s.resetEdge.inReady = false := by simp [resetEdge]
@[simp] theorem State.resetEdge_pipeline : s.resetEdge.pipeline = [] := by simp [resetEdge]
@[simp] theorem State.resetEdge_pending : s.resetEdge.pending = [] := by simp [State.pending]
@[simp] theorem State.resetEdge_outValid : s.resetEdge.outValid = false := by simp [resetEdge]
@[simp] theorem State.resetEdge_trace : s.resetEdge.trace = s.trace := by simp [resetEdge]
@[simp] theorem State.resetEdge_pins : s.resetEdge.pins = s.host.headD s.pins.withdrawn := by simp [resetEdge]
@[simp] theorem State.resetEdge_host : s.resetEdge.host = s.host.tail := by simp [resetEdge]
@[simp] theorem State.powerUpEdge_resetSeen : s.powerUpEdge.resetSeen = s.resetSeen := by simp [powerUpEdge]
@[simp] theorem State.powerUpEdge_pipeline : s.powerUpEdge.pipeline = s.pipeline := by simp [powerUpEdge]
@[simp] theorem State.powerUpEdge_pending : s.powerUpEdge.pending = s.pending := by simp [State.pending]
@[simp] theorem State.powerUpEdge_trace : s.powerUpEdge.trace = s.trace := by simp [powerUpEdge]
@[simp] theorem State.powerUpEdge_pins : s.powerUpEdge.pins = s.host.headD s.pins.withdrawn := by simp [powerUpEdge]
@[simp] theorem State.powerUpEdge_host : s.powerUpEdge.host = s.host.tail := by simp [powerUpEdge]

/-! ### `offer` -/
@[simp] theorem State.offer_host : (s.offer op).host = s.host := rfl
@[simp] theorem State.offer_resetSeen : (s.offer op).resetSeen = true := rfl
@[simp] theorem State.offer_inReady : (s.offer op).inReady = true := rfl
@[simp] theorem State.offer_pipeline : (s.offer op).pipeline = s.pipeline := rfl
@[simp] theorem State.offer_trace : (s.offer op).trace = s.trace := rfl
@[simp] theorem State.offer_operands : (s.offer op).operands = s.operands := rfl
@[simp] theorem State.offer_inOp : (s.offer op).pins.inOp = op := rfl
@[simp] theorem State.offer_accepts : (s.offer op).accepts = true := rfl

end Sys2Proof.Machine
end

