-- ==== Sys2Proof/Laws/Step.lean ====
section
/-! SUPPORT. Everything one operation and one clock edge can do, said once. -/

namespace Sys2Proof.Machine

/-- Every operation answers a next state, in which its result has joined the pipeline. -/
theorem exec_eq (i : Instr) (s : State) : exec i s = .next (s.deliver (operationResult i s.operands)) := by
  cases i <;> rfl

/-- An accepted word answers a next state, in which the result `Exec` gives it has joined the pipeline. -/
theorem runAccepted_eq (s : State) :
    runAccepted s = .next (s.deliver (operationFunction s.pins.inOp s.operands)) := by
  unfold runAccepted operationFunction
  cases decode s.pins.inOp
  · exact exec_eq _ s
  · rfl
  · rfl

/-- The two cases of presenting: nothing is due, or the oldest operation is. -/
theorem present_cases (lat : Nat) (s : State) :
    ((∀ e, s.pipeline.head? = some e → e.age ≠ lat) ∧ s.present lat = s.driveUnspecified false) ∨
    (∃ e rest, s.pipeline = e :: rest ∧ e.age = lat ∧
      s.present lat = { s with pipeline := rest }.driveResult e.result) := by
  unfold State.present
  cases h : s.pipeline with
  | nil => exact .inl ⟨by simp, rfl⟩
  | cons e rest =>
    by_cases ha : e.age = lat
    · exact .inr ⟨e, rest, rfl, ha, by simp [ha]⟩
    · exact .inl ⟨by simpa using ha, by simp [ha]⟩

/-- Presenting moves results from the pipeline to the trace and loses none. -/
@[simp] theorem present_trace_append_pending (lat : Nat) (s : State) :
    (s.present lat).trace ++ (s.present lat).pending = s.trace ++ s.pending := by
  rcases present_cases lat s with ⟨_, h⟩ | ⟨e, rest, hp, _, h⟩
  · simp [h, State.pending]
  · simp [h, State.pending, hp]

/-- The state of an edge at which `rst` is 0 in a unit that has been reset, before the outputs: the operations in
flight are older, and the accepted one has joined them. -/
def State.taken (s : State) : State :=
  if s.accepts then s.tick.deliver (operationFunction s.pins.inOp s.operands) else s.tick

/-- The three cases of a clock edge. -/
theorem clockEdge_cases (lat : Nat) (s : State) :
    (s.pins.rst = true ∧ clockEdge lat s = .next s.resetEdge) ∨
    (s.pins.rst = false ∧ s.resetSeen = false ∧ clockEdge lat s = .next s.powerUpEdge) ∨
    (s.pins.rst = false ∧ s.resetSeen = true ∧ clockEdge lat s = .next (s.taken.finishEdge lat)) := by
  unfold clockEdge
  cases hr : s.pins.rst
  · cases hs : s.resetSeen
    · simp
    · refine .inr (.inr ⟨rfl, rfl, ?_⟩)
      cases ha : s.accepts
      · simp [State.taken, ha]
      · simp [State.taken, ha, runAccepted_eq, finishAnswer]
  · simp

@[simp] theorem taken_resetSeen (s : State) : s.taken.resetSeen = s.resetSeen := by unfold State.taken; split <;> rfl
@[simp] theorem taken_trace (s : State) : s.taken.trace = s.trace := by unfold State.taken; split <;> rfl
@[simp] theorem taken_pins (s : State) : s.taken.pins = s.pins := by unfold State.taken; split <;> rfl
@[simp] theorem taken_host (s : State) : s.taken.host = s.host := by unfold State.taken; split <;> rfl

theorem taken_pending (s : State) : s.taken.pending =
    s.pending ++ (if s.accepts then [operationFunction s.pins.inOp s.operands] else []) := by
  unfold State.taken; split <;> simp_all

end Sys2Proof.Machine
end

