-- ==== Sys2Proof/Laws/Results.lean ====
section
/-! SUPPORT. What every legal operation's result has in common, and the reductions as statements about lanes. -/

namespace Sys2Proof.Machine

/-- Every legal operation completes with status `OK` (R94). -/
@[simp] theorem operationResult_s {n : Nat} (i : Instr) (o : Operands n) : (operationResult i o).s = .ok := by
  cases i <;> rfl

/-- Only the reductions set `T` (R74). -/
theorem operationResult_t {n : Nat} (i : Instr) (o : Operands n) (h1 : i ≠ .all) (h2 : i ≠ .any) :
    (operationResult i o).t = false := by
  cases i <;> first | exact absurd rfl h1 | exact absurd rfl h2 | rfl

theorem allLanesNonZero_iff {n : Nat} (a : Vec n) : allLanesNonZero a = true ↔ ∀ i, i < n → lane a i ≠ zeroWord := by
  simp [allLanesNonZero]

theorem anyLaneNonZero_iff {n : Nat} (a : Vec n) : anyLaneNonZero a = true ↔ ∃ i, i < n ∧ lane a i ≠ zeroWord := by
  simp [anyLaneNonZero]

end Sys2Proof.Machine
end

