-- ==== Sys2Proof/Laws/Run.lean ====
section
/-! SUPPORT. Clock edges by case, runs of edges, and the levels a run samples. -/

namespace Sys2Proof.Machine

variable {lat k : Nat} {s t : State}

theorem accepts_iff (s : State) : s.accepts = true ↔
    s.resetSeen = true ∧ s.pins.rst = false ∧ s.pins.inValid = true ∧ s.inReady = true := by
  simp [State.accepts, and_assoc]

theorem clockEdge_of_reset (h : s.pins.rst = true) : clockEdge lat s = .next s.resetEdge := by
  simp [clockEdge, h]

theorem clockEdge_of_powerUp (h : s.resetSeen = false) (hr : s.pins.rst = false) :
    clockEdge lat s = .next s.powerUpEdge := by
  simp [clockEdge, h, hr]

theorem clockEdge_of_running (h : s.resetSeen = true) (hr : s.pins.rst = false) :
    clockEdge lat s = .next (s.taken.finishEdge lat) := by
  rcases clockEdge_cases lat s with ⟨a, _⟩ | ⟨_, a, _⟩ | ⟨_, _, e⟩
  · simp [hr] at a
  · simp [h] at a
  · exact e

theorem runEdges_succ (h : clockEdge lat s = .next t) : runEdges lat (k + 1) s = runEdges lat k t := by
  simp [runEdges, h]

theorem noReset_drives_succ (h : NoReset (s.drives (k + 1))) : s.pins.rst = false ∧ NoReset (s.host.take k) := by
  unfold State.drives at h
  exact ⟨h _ (by simp), fun p hp => h p (by simp [hp])⟩

theorem noOffer_drives_succ (h : NoOffer (s.drives (k + 1))) : s.pins.inValid = false ∧ NoOffer (s.host.take k) := by
  unfold State.drives at h
  exact ⟨h _ (by simp), fun p hp => h p (by simp [hp])⟩

/-- The levels after an edge: the rest of the host's list, or none that resets or offers. -/
theorem drives_after (hp : t.pins = s.host.headD s.pins.withdrawn) (hh : t.host = s.host.tail) :
    t.drives k = s.host.take k ∨ (s.host = [] ∧ ∀ p ∈ t.drives k, p.rst = false ∧ p.inValid = false) := by
  unfold State.drives
  rw [hp, hh]
  cases h : s.host with
  | nil => exact .inr ⟨rfl, by cases k <;> simp⟩
  | cons p rest => exact .inl rfl

theorem noReset_after (hp : t.pins = s.host.headD s.pins.withdrawn) (hh : t.host = s.host.tail)
    (h : NoReset (s.host.take k)) : NoReset (t.drives k) := by
  rcases drives_after (k := k) hp hh with h' | ⟨_, h'⟩
  · rw [h']; exact h
  · exact fun p hp => (h' p hp).1

theorem noOffer_after (hp : t.pins = s.host.headD s.pins.withdrawn) (hh : t.host = s.host.tail)
    (h : NoOffer (s.host.take k)) : NoOffer (t.drives k) := by
  rcases drives_after (k := k) hp hh with h' | ⟨_, h'⟩
  · rw [h']; exact h
  · exact fun p hp => (h' p hp).2

/-- The operations in flight within an edge, before the outputs: still in order, and none older than `lat`. -/
theorem taken_inOrder (h : PipelineInOrder lat s.pipeline) :
    s.taken.pipeline.Pairwise (fun e f => f.age < e.age) ∧ ∀ e ∈ s.taken.pipeline, e.age ≤ lat := by
  have h1 : (s.pipeline.map Entry.older).Pairwise (fun e f => f.age < e.age) := by
    rw [List.pairwise_map]
    exact h.1.imp (by intro a b h; simp [Entry.older, h])
  have h2 : ∀ e ∈ s.pipeline.map Entry.older, e.age ≤ lat ∧ 0 < e.age := by
    intro e he
    obtain ⟨f, hf, rfl⟩ := List.mem_map.1 he
    have := h.2 f hf
    simp [Entry.older]
    omega
  unfold State.taken
  split
  · refine ⟨List.pairwise_append.2 ⟨h1, by simp, ?_⟩, ?_⟩
    · intro a ha b hb
      simp at hb
      subst hb
      exact (h2 a ha).2
    · intro e he
      rcases List.mem_append.1 he with he | he
      · exact (h2 e he).1
      · simp at he
        subst he
        exact Nat.zero_le _
  · exact ⟨h1, fun e he => (h2 e he).1⟩

end Sys2Proof.Machine
end

