-- ==== Sys2Proof/Tests/Slice0.lean ====
section
/-! SUPPORT. Small tests, each with the place of the spec its expected value comes from, and the witnesses of the
statements' hypotheses. -/

namespace Sys2Proof.Tests

open Sys2Proof Sys2Proof.Machine

/-! ### WellFormed: an ill-formed term for its one check (R53) -/

theorem test_exponent_above_range_refused : (Instr.pot 32).wellFormed = false := by decide
theorem test_exponent_below_range_refused : (Instr.pot (-33)).wellFormed = false := by decide

/-! ### Decode: a word of every row, bit by bit from the table of R49 -/

theorem test_decode_bitwise :
    decode 0b00000000000000000000000000000001#32 = .legal .and ∧
    decode 0b00000000000000000000000000000010#32 = .legal .or ∧
    decode 0b00000000000000000000000000000011#32 = .legal .xor ∧
    decode 0b00000000000000000000000000000100#32 = .legal .not ∧
    decode 0b00000000000000000000000000000101#32 = .legal .sel := by
  decide

theorem test_decode_compare :
    decode 0b00000000000000000000000000010000#32 = .legal .cmpeq ∧
    decode 0b00000000000000000000000000010001#32 = .legal .cmpne ∧
    decode 0b00000000000000000000000000010010#32 = .legal .cmpgt ∧
    decode 0b00000000000000000000000000010011#32 = .legal .cmpge ∧
    decode 0b00000000000000000000000000010100#32 = .legal .cmplt ∧
    decode 0b00000000000000000000000000010101#32 = .legal .cmple ∧
    decode 0b00000000000000000000000000010110#32 = .legal .cmpz ∧
    decode 0b00000000000000000000000000010111#32 = .legal .cmpnz ∧
    decode 0b00000000000000000000000000011000#32 = .legal .all ∧
    decode 0b00000000000000000000000000011001#32 = .legal .any := by
  decide

theorem test_decode_arith :
    decode 0b00000000000000000000000000100000#32 = .legal .add ∧
    decode 0b00000000000000000000000000100001#32 = .legal .sub ∧
    decode 0b00000000000000000000000000100010#32 = .legal .neg ∧
    decode 0b00000000000000000000000000100011#32 = .legal .rhadd ∧
    decode 0b00000000000000000000000000100100#32 = .legal .qrdmulh ∧
    decode 0b00000000000000000000000000100101#32 = .legal .qadd ∧
    decode 0b00000000000000000000000000100110#32 = .legal .qsub ∧
    decode 0b00000000000000000000000000100111#32 = .legal .qneg := by
  decide

theorem test_decode_pot :
    decode 0b00000000000000000000000000110000#32 = .legal (.pot 0) ∧
    decode 0b00000000000000000000001000110000#32 = .legal (.pot 2) ∧
    decode 0b00000000000000000011111100110000#32 = .legal (.pot (-1)) ∧
    decode 0b00000000000000000010000000110000#32 = .legal (.pot (-32)) := by
  decide

theorem test_decode_dup : decode 0b00000000000000000000000001000000#32 = .legal .dup := by decide

/-- The rejected words of section 2.6 of `95_test_vectors.md`. -/
theorem test_decode_rejects :
    decode 0x00000000#32 = .illegalOpcode ∧ decode 0x0000001A#32 = .illegalOpcode ∧
    decode 0x000040FF#32 = .illegalOpcode ∧ decode 0x00000120#32 = .reservedField ∧
    decode 0x00000101#32 = .reservedField ∧ decode 0x00004001#32 = .reservedField ∧
    decode 0x00007F30#32 = .reservedField := by
  decide

theorem test_table_word : decodeTableWord 32 0x00003F30 = some (.pot (-1)) ∧ decodeTableWord 32 0x00004001 = none := by
  decide

/-! ### One operation, through one edge of the machine with `LATENCY = 0` -/

/-- A vector from its lanes, lane 0 first (R11), packed as R33 says. -/
def lanes4 (l0 l1 l2 l3 : Word) : Vec 4 := l3 ++ l2 ++ l1 ++ l0

/-- The unit after reset, with one operation offered. -/
def offering (op : BitVec 32) (a b c : Vec 4) : State :=
  { State.reset with pins := ⟨false, true, op, a, b, c⟩ }

/-- What the cycle after one edge presents. -/
def presents (lat : Nat) (s : State) : Option (BitVec 2 × Vec 4 × Bool) :=
  match clockEdge lat s with
  | .next t => t.capture
  | .fault _ => none
  | .refused _ => none

/-- The example of R59. -/
theorem test_and : presents 0 (offering 0x00000001#32 (lanes4 0xFF00FF00#32 0x12345678#32 0xFFFFFFFF#32 0x00000000#32)
    (lanes4 0x0F0F0F0F#32 0xFFFF0000#32 0x80000000#32 0xFFFFFFFF#32)
    0#_) =
    some (0b00#2, (lanes4 0x0F000F00#32 0x12340000#32 0x80000000#32 0x00000000#32), false) := by
  decide

/-- The example of R60. -/
theorem test_or : presents 0 (offering 0x00000002#32 (lanes4 0xFF00FF00#32 0x12345678#32 0xFFFFFFFF#32 0x00000000#32)
    (lanes4 0x0F0F0F0F#32 0xFFFF0000#32 0x80000000#32 0xFFFFFFFF#32)
    0#_) =
    some (0b00#2, (lanes4 0xFF0FFF0F#32 0xFFFF5678#32 0xFFFFFFFF#32 0xFFFFFFFF#32), false) := by
  decide

/-- The example of R61. -/
theorem test_xor : presents 0 (offering 0x00000003#32 (lanes4 0xFF00FF00#32 0x12345678#32 0xFFFFFFFF#32 0x00000000#32)
    (lanes4 0x0F0F0F0F#32 0xFFFF0000#32 0x80000000#32 0xFFFFFFFF#32)
    0#_) =
    some (0b00#2, (lanes4 0xF00FF00F#32 0xEDCB5678#32 0x7FFFFFFF#32 0xFFFFFFFF#32), false) := by
  decide

/-- The example of R62. -/
theorem test_not : presents 0 (offering 0x00000004#32 (lanes4 0x00000000#32 0xFFFFFFFF#32 0x80000000#32 0x12345678#32)
    0#_
    0#_) =
    some (0b00#2, (lanes4 0xFFFFFFFF#32 0x00000000#32 0x7FFFFFFF#32 0xEDCBA987#32), false) := by
  decide

/-- The first example of R63. -/
theorem test_sel_mask : presents 0 (offering 0x00000005#32 (lanes4 0xFFFFFFFF#32 0x00000000#32 0xFFFFFFFF#32 0x00000000#32)
    (lanes4 0x00000001#32 0x00000002#32 0x00000003#32 0x00000004#32)
    (lanes4 0x0000000A#32 0x00000014#32 0x0000001E#32 0x00000028#32)) =
    some (0b00#2, (lanes4 0x00000001#32 0x00000014#32 0x00000003#32 0x00000028#32), false) := by
  decide

/-- Section 2.1 of `95_test_vectors.md`, the non-mask row. -/
theorem test_sel_non_mask : presents 0 (offering 0x00000005#32 (lanes4 0xFF00FF00#32 0x00000000#32 0xFFFFFFFF#32 0x0F0F0F0F#32)
    (lanes4 0x11111111#32 0x22222222#32 0x33333333#32 0x44444444#32)
    (lanes4 0xAAAAAAAA#32 0xBBBBBBBB#32 0xCCCCCCCC#32 0xDDDDDDDD#32)) =
    some (0b00#2, (lanes4 0x11AA11AA#32 0xBBBBBBBB#32 0x33333333#32 0xD4D4D4D4#32), false) := by
  decide

/-- The example of R64. -/
theorem test_cmpeq : presents 0 (offering 0x00000010#32 (lanes4 0x00000005#32 0xFFFFFFFF#32 0x80000000#32 0x00000007#32)
    (lanes4 0x00000005#32 0x00000001#32 0x7FFFFFFF#32 0xFFFFFFF9#32)
    0#_) =
    some (0b00#2, (lanes4 0xFFFFFFFF#32 0x00000000#32 0x00000000#32 0x00000000#32), false) := by
  decide

/-- The example of R65. -/
theorem test_cmpne : presents 0 (offering 0x00000011#32 (lanes4 0x00000005#32 0xFFFFFFFF#32 0x80000000#32 0x00000007#32)
    (lanes4 0x00000005#32 0x00000001#32 0x7FFFFFFF#32 0xFFFFFFF9#32)
    0#_) =
    some (0b00#2, (lanes4 0x00000000#32 0xFFFFFFFF#32 0xFFFFFFFF#32 0xFFFFFFFF#32), false) := by
  decide

/-- The example of R66. -/
theorem test_cmpgt : presents 0 (offering 0x00000012#32 (lanes4 0x00000005#32 0xFFFFFFFF#32 0x80000000#32 0x00000007#32)
    (lanes4 0x00000005#32 0x00000001#32 0x7FFFFFFF#32 0xFFFFFFF9#32)
    0#_) =
    some (0b00#2, (lanes4 0x00000000#32 0x00000000#32 0x00000000#32 0xFFFFFFFF#32), false) := by
  decide

/-- The example of R67. -/
theorem test_cmpge : presents 0 (offering 0x00000013#32 (lanes4 0x00000005#32 0xFFFFFFFF#32 0x80000000#32 0x00000007#32)
    (lanes4 0x00000005#32 0x00000001#32 0x7FFFFFFF#32 0xFFFFFFF9#32)
    0#_) =
    some (0b00#2, (lanes4 0xFFFFFFFF#32 0x00000000#32 0x00000000#32 0xFFFFFFFF#32), false) := by
  decide

/-- The example of R68. -/
theorem test_cmplt : presents 0 (offering 0x00000014#32 (lanes4 0x00000005#32 0xFFFFFFFF#32 0x80000000#32 0x00000007#32)
    (lanes4 0x00000005#32 0x00000001#32 0x7FFFFFFF#32 0xFFFFFFF9#32)
    0#_) =
    some (0b00#2, (lanes4 0x00000000#32 0xFFFFFFFF#32 0xFFFFFFFF#32 0x00000000#32), false) := by
  decide

/-- The example of R69. -/
theorem test_cmple : presents 0 (offering 0x00000015#32 (lanes4 0x00000005#32 0xFFFFFFFF#32 0x80000000#32 0x00000007#32)
    (lanes4 0x00000005#32 0x00000001#32 0x7FFFFFFF#32 0xFFFFFFF9#32)
    0#_) =
    some (0b00#2, (lanes4 0xFFFFFFFF#32 0xFFFFFFFF#32 0xFFFFFFFF#32 0x00000000#32), false) := by
  decide

/-- The example of R70. -/
theorem test_cmpz : presents 0 (offering 0x00000016#32 (lanes4 0x00000000#32 0x00000001#32 0x80000000#32 0xFFFFFFFF#32)
    0#_
    0#_) =
    some (0b00#2, (lanes4 0xFFFFFFFF#32 0x00000000#32 0x00000000#32 0x00000000#32), false) := by
  decide

/-- The example of R71. -/
theorem test_cmpnz : presents 0 (offering 0x00000017#32 (lanes4 0x00000000#32 0x00000001#32 0x80000000#32 0xFFFFFFFF#32)
    0#_
    0#_) =
    some (0b00#2, (lanes4 0x00000000#32 0xFFFFFFFF#32 0xFFFFFFFF#32 0xFFFFFFFF#32), false) := by
  decide

/-- The non-mask example of R72. -/
theorem test_all_non_mask : presents 0 (offering 0x00000018#32 (lanes4 0x00000001#32 0x00000002#32 0x80000000#32 0x00010000#32)
    0#_
    0#_) =
    some (0b00#2, (lanes4 0xFFFFFFFF#32 0xFFFFFFFF#32 0xFFFFFFFF#32 0xFFFFFFFF#32), true) := by
  decide

/-- The second example of R72. -/
theorem test_all_one_zero_lane : presents 0 (offering 0x00000018#32 (lanes4 0xFFFFFFFF#32 0x00000000#32 0xFFFFFFFF#32 0xFFFFFFFF#32)
    0#_
    0#_) =
    some (0b00#2, (lanes4 0x00000000#32 0x00000000#32 0x00000000#32 0x00000000#32), false) := by
  decide

/-- The non-mask example of R73. -/
theorem test_any_non_mask : presents 0 (offering 0x00000019#32 (lanes4 0x00000000#32 0x00000000#32 0x00000000#32 0x00000100#32)
    0#_
    0#_) =
    some (0b00#2, (lanes4 0xFFFFFFFF#32 0xFFFFFFFF#32 0xFFFFFFFF#32 0xFFFFFFFF#32), true) := by
  decide

/-- The first example of R73. -/
theorem test_any_zero : presents 0 (offering 0x00000019#32 (lanes4 0x00000000#32 0x00000000#32 0x00000000#32 0x00000000#32)
    0#_
    0#_) =
    some (0b00#2, (lanes4 0x00000000#32 0x00000000#32 0x00000000#32 0x00000000#32), false) := by
  decide

/-- The example of R76. -/
theorem test_add : presents 0 (offering 0x00000020#32 (lanes4 0x7FFFFFFF#32 0x80000000#32 0xFFFFFFFF#32 0x12345678#32)
    (lanes4 0x00000001#32 0xFFFFFFFF#32 0x00000001#32 0x11111111#32)
    0#_) =
    some (0b00#2, (lanes4 0x80000000#32 0x7FFFFFFF#32 0x00000000#32 0x23456789#32), false) := by
  decide

/-- The example of R77. -/
theorem test_sub : presents 0 (offering 0x00000021#32 (lanes4 0x80000000#32 0x7FFFFFFF#32 0x00000000#32 0x00000005#32)
    (lanes4 0x00000001#32 0xFFFFFFFF#32 0x80000000#32 0x00000007#32)
    0#_) =
    some (0b00#2, (lanes4 0x7FFFFFFF#32 0x80000000#32 0x80000000#32 0xFFFFFFFE#32), false) := by
  decide

/-- The example of R78. -/
theorem test_neg : presents 0 (offering 0x00000022#32 (lanes4 0x80000000#32 0x7FFFFFFF#32 0x00000000#32 0x00000001#32)
    0#_
    0#_) =
    some (0b00#2, (lanes4 0x80000000#32 0x80000001#32 0x00000000#32 0xFFFFFFFF#32), false) := by
  decide

/-- The example of R79. -/
theorem test_rhadd : presents 0 (offering 0x00000023#32 (lanes4 0x00000001#32 0xFFFFFFFF#32 0x7FFFFFFF#32 0x80000000#32)
    (lanes4 0x00000002#32 0xFFFFFFFE#32 0x7FFFFFFF#32 0xFFFFFFFF#32)
    0#_) =
    some (0b00#2, (lanes4 0x00000002#32 0xFFFFFFFF#32 0x7FFFFFFF#32 0xC0000000#32), false) := by
  decide

/-- The example of R80. -/
theorem test_qrdmulh : presents 0 (offering 0x00000024#32 (lanes4 0x40000000#32 0x80000000#32 0x7FFFFFFF#32 0x60000000#32)
    (lanes4 0x40000000#32 0x80000000#32 0x7FFFFFFF#32 0xA0000000#32)
    0#_) =
    some (0b00#2, (lanes4 0x20000000#32 0x7FFFFFFF#32 0x7FFFFFFE#32 0xB8000000#32), false) := by
  decide

/-- The ties of R80, and the neighbours of the corner. -/
theorem test_qrdmulh_ties : presents 0 (offering 0x00000024#32 (lanes4 0x00000001#32 0xFFFFFFFF#32 0x80000000#32 0x80000000#32)
    (lanes4 0x40000000#32 0x40000000#32 0x80000001#32 0x7FFFFFFF#32)
    0#_) =
    some (0b00#2, (lanes4 0x00000001#32 0x00000000#32 0x7FFFFFFF#32 0x80000001#32), false) := by
  decide

/-- The example of R81. -/
theorem test_qadd : presents 0 (offering 0x00000025#32 (lanes4 0x7FFFFFFF#32 0x80000000#32 0xFFFFFFFF#32 0x7FFFFFFF#32)
    (lanes4 0x00000001#32 0xFFFFFFFF#32 0x00000001#32 0x80000000#32)
    0#_) =
    some (0b00#2, (lanes4 0x7FFFFFFF#32 0x80000000#32 0x00000000#32 0xFFFFFFFF#32), false) := by
  decide

/-- The example of R82. -/
theorem test_qsub : presents 0 (offering 0x00000026#32 (lanes4 0x80000000#32 0x00000000#32 0x7FFFFFFF#32 0xFFFFFFFE#32)
    (lanes4 0x00000001#32 0x80000000#32 0xFFFFFFFF#32 0x7FFFFFFF#32)
    0#_) =
    some (0b00#2, (lanes4 0x80000000#32 0x7FFFFFFF#32 0x7FFFFFFF#32 0x80000000#32), false) := by
  decide

/-- The example of R83. -/
theorem test_qneg : presents 0 (offering 0x00000027#32 (lanes4 0x80000000#32 0x7FFFFFFF#32 0x00000000#32 0xFFFFFFFF#32)
    0#_
    0#_) =
    some (0b00#2, (lanes4 0x7FFFFFFF#32 0x80000001#32 0x00000000#32 0x00000001#32), false) := by
  decide

/-- The example of R87, `POT #-1`. -/
theorem test_pot_down : presents 0 (offering 0x00003F30#32 (lanes4 0x00000003#32 0xFFFFFFFD#32 0x40000000#32 0x80000000#32)
    0#_
    0#_) =
    some (0b00#2, (lanes4 0x00000002#32 0xFFFFFFFF#32 0x20000000#32 0xC0000000#32), false) := by
  decide

/-- The example of R87, `POT #1`. -/
theorem test_pot_up : presents 0 (offering 0x00000130#32 (lanes4 0x00000003#32 0xFFFFFFFD#32 0x40000000#32 0x80000000#32)
    0#_
    0#_) =
    some (0b00#2, (lanes4 0x00000006#32 0xFFFFFFFA#32 0x7FFFFFFF#32 0x80000000#32), false) := by
  decide

/-- Section 2.4 of `95_test_vectors.md`, column `#-31`. -/
theorem test_pot_edges : presents 0 (offering 0x00002130#32 (lanes4 0x40000000#32 0xC0000000#32 0x7FFFFFFF#32 0x80000000#32)
    0#_
    0#_) =
    some (0b00#2, (lanes4 0x00000001#32 0x00000000#32 0x00000001#32 0xFFFFFFFF#32), false) := by
  decide

/-- The example of R91. -/
theorem test_dup : presents 0 (offering 0x00000040#32 (lanes4 0xFFFFFFFB#32 0x11111111#32 0x22222222#32 0x33333333#32)
    0#_
    0#_) =
    some (0b00#2, (lanes4 0xFFFFFFFB#32 0xFFFFFFFB#32 0xFFFFFFFB#32 0xFFFFFFFB#32), false) := by
  decide

/-- Section 2.6 of `95_test_vectors.md`, word 0x000040FF. -/
theorem test_illegal_opcode : presents 0 (offering 0x000040FF#32 (lanes4 0x00000001#32 0x00000002#32 0x00000003#32 0x00000004#32)
    (lanes4 0x00000005#32 0x00000006#32 0x00000007#32 0x00000008#32)
    (lanes4 0x00000009#32 0x00000009#32 0x00000009#32 0x00000009#32)) =
    some (0b01#2, (lanes4 0x00000000#32 0x00000000#32 0x00000000#32 0x00000000#32), false) := by
  decide

/-- Section 2.6 of `95_test_vectors.md`, word 0x00000120. -/
theorem test_reserved_field : presents 0 (offering 0x00000120#32 (lanes4 0x00000001#32 0x00000002#32 0x00000003#32 0x00000004#32)
    (lanes4 0x00000005#32 0x00000006#32 0x00000007#32 0x00000008#32)
    (lanes4 0x00000009#32 0x00000009#32 0x00000009#32 0x00000009#32)) =
    some (0b10#2, (lanes4 0x00000000#32 0x00000000#32 0x00000000#32 0x00000000#32), false) := by
  decide

/-- R33: lane `i` of the packed vector is bits `32*i+31 .. 32*i`, and writing lane by lane packs the same way. -/
theorem test_lane_order : lanes4 1#32 2#32 3#32 4#32 = (0x00000004000000030000000200000001#128 : Vec 4) ∧
    ofLanes 4 (fun i => BitVec.ofNat 32 (i + 1)) = lanes4 1#32 2#32 3#32 4#32 := by
  decide

/-! ### The timing trace of section 3 of `95_test_vectors.md` (`LATENCY = 2`), one edge at a time -/

/-- Three fields of the next state: `in_ready`, `out_valid`, and the ages of the operations in flight; and how many
results have been presented. -/
def edgeShape (lat : Nat) (s : State) : Option (Bool × Bool × List Nat × Nat) :=
  match clockEdge lat s with
  | .next t => some (t.inReady, t.outValid, t.pipeline.map Entry.age, t.trace.length)
  | .fault _ => none
  | .refused _ => none

/-- A unit with two operations in flight, accepted one and zero edges ago, which is offered a third. -/
def busy : State :=
  { offering 0x00000040#32 0#_ 0#_ 0#_ with
    pipeline := [⟨vectorResult 1#_, 1⟩, ⟨vectorResult 2#_, 0⟩] }

/-- Edge 4: op3 is accepted and op1 is presented. -/
theorem test_trace_edge4 : edgeShape 2 busy = some (true, true, [1, 0], 1) := by decide

/-- Edge 5: `rst` is 1, so op4 is not accepted and what is in flight is discarded. -/
theorem test_trace_edge5 :
    edgeShape 2 { busy with pins := { busy.pins with rst := true } } = some (false, false, [], 0) := by
  decide

/-- Edge 6: `in_ready` was 0, so the offer is not accepted; `in_ready` is 1 from here. -/
theorem test_trace_edge6 :
    edgeShape 2 { busy with inReady := false, pipeline := [] } = some (true, false, [], 0) := by
  decide

/-- Edge 8: nothing is offered, and the operation in flight grows older. -/
theorem test_trace_edge8 :
    edgeShape 2 { busy with pins := { busy.pins with inValid := false }, pipeline := [⟨vectorResult 3#_, 0⟩] } =
      some (true, false, [1], 0) := by
  decide

/-! ### The step, and running from reset -/

/-- A table word placed with `withFetchWord` is accepted and run by the very next step from reset. -/
theorem test_step_runs_fetch_word :
    (match step (State.reset.withFetchWord 32 0x00000020) with | .next _ => true | _ => false) = true ∧
    (State.reset.withFetchWord 32 0x00000020).accepts = true := by
  decide

/-- The host's machine runs the same step. -/
theorem test_core_run : (match Sys2Proof.core.run 3 State.reset with | .next _ => true | _ => false) = true := by rfl

/-! ### The time-free view, the assembler and programs -/

/-- The steps that the notes of the timing trace list: accept op1 to op3, present op1, reset, accept op4, present. -/
theorem test_time_free_trace :
    runView [.accept 0x40#32 ⟨lanes4 1#32 0#32 0#32 0#32, 0#_, 0#_⟩, .accept 0x40#32 ⟨0#_, 0#_, 0#_⟩,
      .accept 0x40#32 ⟨0#_, 0#_, 0#_⟩, .present, .reset, .accept 0x00#32 ⟨0#_, 0#_, 0#_⟩, .present] [] =
    some ([], [⟨.ok, lanes4 1#32 1#32 1#32 1#32, false⟩, ⟨.illegalOpcode, 0#_, false⟩]) := by
  decide

/-- The examples and rejections of R53. -/
theorem test_assemble : assemble "POT" (some (-1)) = some 0x00003F30#32 ∧ assemble "QNEG" none = some 0x00000027#32 ∧
    assemble "POT" (some 32) = none ∧ assemble "MULH" none = none := by
  decide

/-- Line 1 of program P5 of section 4 of `95_test_vectors.md`. -/
theorem test_program_line :
    (Line.run ⟨"s1", 0x00000025#32, ["acc", "d"]⟩
      [startValue "acc" (lanes4 0x70000000#32 0x90000000#32 1#32 0xFFFFFFFF#32),
       startValue "d" (lanes4 0x20000000#32 0xE0000000#32 2#32 0xFFFFFFFE#32)]).bind (fun vals => Values.vector vals "s1") =
    some (lanes4 0x7FFFFFFF#32 0x80000000#32 3#32 0xFFFFFFFD#32) := by
  decide

/-! ### Witnesses: concrete states and operands that meet the hypotheses of the statements -/

/-- `DecoderTestsInOrder`: a word for each clause, at the boundaries. -/
theorem witness_decoder_clauses :
    ¬ AssignedOpcode (opcNumber 0x00000000#32) ∧ ¬ AssignedOpcode (opcNumber 0x00000006#32) ∧
    (AssignedOpcode (opcNumber 0x00004005#32) ∧ rsvdNumber 0x00004005#32 ≠ 0) ∧
    (AssignedOpcode (opcNumber 0x00000127#32) ∧ rsvdNumber 0x00000127#32 = 0 ∧ opcNumber 0x00000127#32 ≠ 0x30 ∧
      imm6Number 0x00000127#32 ≠ 0) ∧
    (AssignedOpcode (opcNumber 0x00003F30#32) ∧ rsvdNumber 0x00003F30#32 = 0 ∧ opcNumber 0x00003F30#32 = 0x30) ∧
    (AssignedOpcode (opcNumber 0x00000040#32) ∧ rsvdNumber 0x00000040#32 = 0 ∧ imm6Number 0x00000040#32 = 0) := by
  decide

/-- `MalformedWordsCompleteWithAStatus`: the same words stand on the port of a state. -/
theorem witness_malformed_words (op : BitVec 32) : (offering op 0#_ 0#_ 0#_).pins.inOp = op := rfl

/-- `LegalWordsAreTheTableRows`, `DecodeAndEncodeAgree`, `PotExponentIsSignedImmediate`: a legal word that is no `POT`,
one that is, and a row it matches. -/
theorem witness_legal_word : decode 0x00000027#32 = .legal .qneg ∧ decode 0x00002030#32 = .legal (.pot (-32)) ∧
    (⟨"POT", 0x00000030, 0xFFFFC0FF⟩ : OpcodeRow) ∈ opcodeRows ∧ 0x00002030#32 &&& 0xFFFFC0FF#32 = 0x00000030#32 := by
  decide

/-- `LegalWordsAreTheTableRows`, `PotExponentIsSignedImmediate`, `AssemblerWritesTheWord`: an operation other than
`POT`. -/
theorem witness_not_pot : ∀ e, Instr.qneg ≠ .pot e := by intro e; simp

/-- `DecodeAndEncodeAgree`, `AssemblerWritesTheWord`, `PotScalesUpSaturating`: the ends of the exponent's range. -/
theorem witness_exponent_ends : (Instr.pot (-32)).WellFormed ∧ (Instr.pot 31).WellFormed ∧ Instr.dup.WellFormed ∧
    ((-33 : Int) < -32 ∨ (31 : Int) < -33) ∧ ((32 : Int) < -32 ∨ (31 : Int) < 32) := by
  decide

/-- `AssemblerWritesTheWord`: an unknown mnemonic. -/
theorem witness_unknown_mnemonic : ∀ i, mnemonic i ≠ "MULH" := by
  intro i
  cases i <;> simp [mnemonic]

/-- `StepRunsTheDecodedOperation`, `AcceptedWordDeliversExec`, `AcceptanceFollowsTheHandshake`: an accepting state, one
that accepts nothing, and one in reset. -/
theorem witness_accepting :
    (offering 0x00000020#32 0#_ 0#_ 0#_).accepts = true ∧
    decode (offering 0x00000020#32 0#_ 0#_ 0#_).pins.inOp = .legal .add ∧
    (State.reset.accepts = false ∧ State.reset.pins.rst = false) ∧
    { State.reset with pins := { Pins.idle with rst := true } }.pins.rst = true := by
  decide

/-- The arithmetic, comparison and scaling statements: any pair of lane values stands on the ports of a state, in every
lane. So each of their corner clauses is met. -/
theorem witness_lane_pair (op : BitVec 32) (x y : Word) (i : Nat) (h : i < 4) :
    lane (offering op (bcast x) (bcast y) 0#_).pins.inA i = x ∧ lane (offering op (bcast x) (bcast y) 0#_).pins.inB i = y :=
  ⟨lane_bcast h, lane_bcast h⟩

/-- The clauses about equal, zero, all-ones and C-equal operands. -/
theorem witness_equal_ports (op : BitVec 32) (v w : Vec 4) :
    (offering op v v w).pins.inA = (offering op v v w).pins.inB ∧ (offering op v 0#_ w).pins.inB = 0#_ ∧
    (offering op v (BitVec.allOnes _) w).pins.inB = BitVec.allOnes _ ∧
    (offering op w v v).pins.inB = (offering op w v v).pins.inC ∧
    (offering op v w v).pins.inA = (offering op v w v).pins.inC :=
  ⟨rfl, rfl, rfl, rfl, rfl⟩

/-- `AddSaturates`, `SubSaturates`: sums and differences just beyond, and just at, both bounds. -/
theorem witness_saturation_bounds :
    (max32.toInt + (1#32).toInt > 2147483647) ∧ (min32.toInt + (0xFFFFFFFF#32).toInt < -2147483648) ∧
    (max32.toInt + (0#32).toInt ≤ 2147483647) ∧ (-2147483648 ≤ min32.toInt + (0#32).toInt) ∧
    (max32.toInt - (0xFFFFFFFF#32).toInt > 2147483647) ∧ (min32.toInt - (1#32).toInt < -2147483648) ∧
    ((0xFFFFFFFF#32).toInt - min32.toInt ≤ 2147483647) ∧ (-2147483648 ≤ (0xFFFFFFFF#32).toInt - max32.toInt) := by
  decide

/-- `MultiplyHighRounds`: a pair other than the corner; `MultiplyHighSigns`: operands of both signs. -/
theorem witness_multiply_pairs : ¬ (min32 = 0x80000000#32 ∧ max32 = 0x80000000#32) ∧ 0 ≤ max32.toInt ∧ min32.toInt ≤ 0 := by
  decide

/-- `PotScalesUpSaturating`: products beyond and at both bounds, and the signs of the clauses at 31. -/
theorem witness_scale_up_bounds :
    (1 ≤ (1 : Int) ∧ (31 : Int) ≤ 31) ∧ (0x40000000#32).toInt * 2 ^ (1 : Int).toNat > 2147483647 ∧
    (0xBFFFFFFF#32).toInt * 2 ^ (1 : Int).toNat < -2147483648 ∧ (0x3FFFFFFF#32).toInt * 2 ^ (1 : Int).toNat ≤ 2147483647 ∧
    -2147483648 ≤ (0xC0000000#32).toInt * 2 ^ (1 : Int).toNat ∧ (0xFFFFFFFF#32).toInt < 0 ∧ 0 < (1#32).toInt := by
  decide

/-- `UnlistedOperandsAreIgnored`: two different vectors with the same lane 0. -/
theorem witness_same_lane_zero : lane (lanes4 7#32 1#32 1#32 1#32) 0 = lane (lanes4 7#32 2#32 2#32 2#32) 0 ∧
    lanes4 7#32 1#32 1#32 1#32 ≠ lanes4 7#32 2#32 2#32 2#32 := by
  decide

/-- `MaskLaws`: a vector that is a mask, with both kinds of lane. -/
theorem witness_mask : IsMask (lanes4 onesWord zeroWord onesWord zeroWord) := by decide

/-- `PseudoInstructionsAreExact`, `ProgramLinesUseCapturedValues`: values with two captured names, and two new names. -/
theorem witness_values :
    Values.vector (n := 4) [startValue "a" 1#_, startValue "b" 2#_] "a" = some 1#_ ∧
    Values.vector (n := 4) [startValue "a" 1#_, startValue "b" 2#_] "b" = some 2#_ ∧
    ([startValue "a" (1#128 : Vec 4), startValue "b" (2#128 : Vec 4)] : Values 4).lookup "d" = none ∧
    ([startValue "a" (1#128 : Vec 4), startValue "b" (2#128 : Vec 4)] : Values 4).lookup "z" = none ∧ "d" ≠ "z" ∧
    (Pseudo.qshl 1).wellFormed = true ∧ (Pseudo.rshr 32).wellFormed = true ∧ Pseudo.andn.wellFormed = true := by
  decide

/-- `ProgramLinesUseCapturedValues`: a word and a source list for each clause, over the values of `witness_values`: one
source for an operation that reads A alone, two, three, both rejections with none to three captured sources, too few
sources, and too many. -/
theorem witness_program_lines :
    (decode 0x00000004#32 = .legal .not ∧ reads .not = [.a]) ∧
    (decode 0x00003F30#32 = .legal (.pot (-1)) ∧ reads (.pot (-1)) = [.a]) ∧
    (decode 0x00000020#32 = .legal .add ∧ ["b"].length < (reads .add).length) ∧
    (decode 0x00000005#32 = .legal .sel ∧ ["a", "b"].length < (reads .sel).length) ∧
    decode 0x00000000#32 = .illegalOpcode ∧ decode 0x00000120#32 = .reservedField ∧
    (∀ srcs ∈ [[], ["a"], ["a", "b"], ["a", "b", "a"]],
      srcs.length ≤ 3 ∧ ∀ x ∈ srcs, Values.vector (n := 4) [startValue "a" 1#_, startValue "b" 2#_] x ≠ none) ∧
    Values.vector (n := 4) [startValue "a" 1#_] "b" = none ∧ 3 < ["a", "b", "a", "b"].length := by
  decide

/-- Line 2 of program P4 of section 4 of `95_test_vectors.md`, which lists no source. -/
theorem test_program_line_malformed :
    Line.run (n := 4) ⟨"r", 0x00000000#32, []⟩ [] = some [("r", ⟨.illegalOpcode, 0#_, false⟩)] := by decide

/-- `ResultAppearsAfterLatency`, `ResetDiscardsOperationsInFlight`: a busy unit that accepts, meets the invariant for
`LATENCY = 2`, and is not reset in the next two edges; and the same with a reset at the second of them. -/
theorem witness_busy_invariant (h : List Pins) : UnitInv 2 { busy with host := h } := by
  have w : UnitInv 2 busy := by constructor <;> decide
  exact ⟨w.inOrder, w.pendingProper, w.traceProper, w.inReset, w.poweredUp, w.presented⟩

theorem witness_busy :
    busy.accepts = true ∧ NoReset (({ busy with host := [Pins.idle, Pins.idle] } : State).host.take 2) ∧
    1 + 1 ≤ 2 ∧ NoReset ([Pins.idle, { Pins.idle with rst := true }].take 1) ∧
    [Pins.idle, { Pins.idle with rst := true }][1]? = some { Pins.idle with rst := true } := by
  decide

/-- `ResultsInAcceptanceOrder`, `ResultsDoNotDependOnLatency`, `OutputsAreNeverRead`, `AtMostOneResultPerCycle`: the
busy unit has been reset, is ready, and is driven without a reset. -/
theorem witness_running : busy.resetSeen = true ∧ busy.inReady = true ∧
    NoReset (({ busy with host := [busy.pins, Pins.idle] } : State).drives 3) := by
  decide

/-- `PipelineDrainsInLatency`: the same unit, with nothing offered and no reset. -/
theorem witness_draining :
    NoReset (({ busy with pins := Pins.idle } : State).drives 2) ∧ NoOffer (({ busy with pins := Pins.idle } : State).drives 2) ∧
    ({ busy with pins := Pins.idle } : State).resetSeen = true := by
  decide

theorem witness_draining_invariant : UnitInv 2 { busy with pins := Pins.idle } := by
  constructor <;> decide

/-- `BootReachesTheResetState`, `ResetEdgeSilencesTheUnit`, `ReadinessFollowsReset`: power-up with `rst` at 1 and then
at 0. -/
theorem witness_boot :
    ({ State.powerUp with pins := { Pins.idle with rst := true }, host := [Pins.idle, Pins.idle] } : State).pins.rst = true ∧
    Pins.idle.rst = false ∧ NoReset ([Pins.idle].take 1) ∧ NoOffer ([Pins.idle].take 1) := by
  decide

/-- `PowerUpNeedsAReset`: power-up with `rst` at 0. -/
theorem witness_power_up : State.powerUp.resetSeen = false ∧ State.powerUp.pins.rst = false := by decide

/-- `PresentedStatusIsNeverReserved`, `EveryEdgeKeepsTheInvariant`: a unit that presents the result of a malformed word,
and one that presents a boolean, meet the invariant. -/
def presenting (r : Result 4) : State :=
  { State.reset with outValid := true, outY := r.y, outT := r.t, outStatus := r.s.code, trace := [r] }

theorem witness_presenting :
    UnitInv 2 (presenting (illegalResult .reservedField)) ∧ UnitInv 2 (presenting (booleanResult true)) := by
  constructor <;> constructor <;> decide

/-- `EveryEdgeKeepsTheInvariant`: an edge from a state that meets the invariant has a next state. -/
theorem witness_edge_answers : clockEdge 2 busy = .next (busy.taken.finishEdge 2) := by rfl

end Sys2Proof.Tests
end

/-! PROOFS. Family `00_scope.md`: the scalar and the vector configuration (R8, R12), and the free `LATENCY` (R9). -/

namespace Sys2Proof.Machine

/-! ### Lane-wise operations -/

theorem laneWise_iff (i : Instr) : laneWise i = true ↔ i ≠ .all ∧ i ≠ .any ∧ i ≠ .dup := by
  cases i <;> simp [laneWise]

/-- "No lane reads another" (R12): one function of the operands' lanes `k` gives lane `k` of the result, whatever the
lane count and whatever `k`. -/
theorem exists_lane_function : ∀ i : Instr, laneWise i = true → ∃ f : Word → Word → Word → Word,
    ∀ (n : Nat) (o : Operands n) (k : Nat), k < n →
      lane (operationResult i o).y k = f (lane o.a k) (lane o.b k) (lane o.c k)
  | .and, _ => ⟨fun a b _ => a &&& b, fun _ o k _ => lane_and o.a o.b k⟩
  | .or, _ => ⟨fun a b _ => a ||| b, fun _ o k _ => lane_or o.a o.b k⟩
  | .xor, _ => ⟨fun a b _ => a ^^^ b, fun _ o k _ => lane_xor o.a o.b k⟩
  | .not, _ => ⟨fun a _ _ => ~~~a, fun _ o _ h => lane_not o.a h⟩
  | .sel, _ => ⟨fun a b c => (a &&& b) ||| (~~~a &&& c), fun _ o k h => by
      simp [operationResult, selResult, vectorResult, h]⟩
  | .cmpeq, _ => ⟨fun a b _ => cmpEqLane a b, fun _ _ _ h => lane_map2 h⟩
  | .cmpne, _ => ⟨fun a b _ => cmpNeLane a b, fun _ _ _ h => lane_map2 h⟩
  | .cmpgt, _ => ⟨fun a b _ => cmpGtLane a b, fun _ _ _ h => lane_map2 h⟩
  | .cmpge, _ => ⟨fun a b _ => cmpGeLane a b, fun _ _ _ h => lane_map2 h⟩
  | .cmplt, _ => ⟨fun a b _ => cmpLtLane a b, fun _ _ _ h => lane_map2 h⟩
  | .cmple, _ => ⟨fun a b _ => cmpLeLane a b, fun _ _ _ h => lane_map2 h⟩
  | .cmpz, _ => ⟨fun a _ _ => cmpZLane a, fun _ _ _ h => lane_map1 h⟩
  | .cmpnz, _ => ⟨fun a _ _ => cmpNzLane a, fun _ _ _ h => lane_map1 h⟩
  | .add, _ => ⟨fun a b _ => addLane a b, fun _ _ _ h => lane_map2 h⟩
  | .sub, _ => ⟨fun a b _ => subLane a b, fun _ _ _ h => lane_map2 h⟩
  | .neg, _ => ⟨fun a _ _ => negLane a, fun _ _ _ h => lane_map1 h⟩
  | .rhadd, _ => ⟨fun a b _ => rhaddLane a b, fun _ _ _ h => lane_map2 h⟩
  | .qrdmulh, _ => ⟨fun a b _ => qrdmulhLane a b, fun _ _ _ h => lane_map2 h⟩
  | .qadd, _ => ⟨fun a b _ => qaddLane a b, fun _ _ _ h => lane_map2 h⟩
  | .qsub, _ => ⟨fun a b _ => qsubLane a b, fun _ _ _ h => lane_map2 h⟩
  | .qneg, _ => ⟨fun a _ _ => qnegLane a, fun _ _ _ h => lane_map1 h⟩
  | .pot e, _ => ⟨fun a _ _ => potLane e a, fun _ _ _ h => lane_map1 h⟩

/-- A lane-wise operation gives on lane `k` of its operands, alone, the lane `k` of what it gives on all of them. -/
theorem lane_operationResult_laneOnly {n : Nat} {i : Instr} (hi : laneWise i = true) (o : Operands n) {k : Nat}
    (hk : k < n) : lane (operationResult i o).y k = lane (operationResult i (o.laneOnly k)).y 0 := by
  obtain ⟨f, hf⟩ := exists_lane_function i hi
  rw [hf n o k hk, hf 1 (o.laneOnly k) 0 Nat.one_pos]
  simp only [Operands.laneOnly, lane_laneOnly]

/-- Settles O31: by the one lane function of a lane-wise operation; the status and `T` do not depend on the operands. -/
theorem scalarAndVectorAgree : Obligations.ScalarAndVectorAgree := by
  intro n i o k hk hall hany hdup
  refine ⟨lane_operationResult_laneOnly ((laneWise_iff i).2 ⟨hall, hany, hdup⟩) o hk, ?_, ?_⟩
  · rw [operationResult_s, operationResult_s]
  · rw [operationResult_t i o hall hany, operationResult_t i (o.laneOnly k) hall hany]

/-! ### The free `LATENCY` -/

/-- Two units that agree on all that does not depend on when a result is presented: what the host drives, readiness, and
the results presented and in flight taken as one sequence. -/
structure AgreeUpToTiming (s s' : State) : Prop where
  pins : s.pins = s'.pins
  host : s.host = s'.host
  resetSeen : s.resetSeen = s'.resetSeen
  inReady : s.inReady = s'.inReady
  results : s.trace ++ s.pending = s'.trace ++ s'.pending

/-- An edge with no reset moves results from the pipeline to the trace; it adds to the two of them the accepted
operation's result and nothing else, whatever `lat` is. -/
theorem taken_finishEdge_results (lat : Nat) (s : State) :
    (s.taken.finishEdge lat).trace ++ (s.taken.finishEdge lat).pending =
      s.trace ++ s.pending ++ (if s.accepts then [operationFunction s.pins.inOp s.operands] else []) := by
  rw [State.finishEdge_trace, State.finishEdge_pending, present_trace_append_pending, taken_trace, taken_pending,
    List.append_assoc]

namespace AgreeUpToTiming

variable {s s' : State}

theorem accepts_eq (h : AgreeUpToTiming s s') : s.accepts = s'.accepts := by
  rw [State.accepts, State.accepts, h.pins, h.resetSeen, h.inReady]

theorem operands_eq (h : AgreeUpToTiming s s') : s.operands = s'.operands := congrArg Pins.operands h.pins

/-- An edge with no reset keeps the agreement, each unit with a latency of its own. -/
theorem taken_finishEdge (h : AgreeUpToTiming s s') (lat lat' : Nat) :
    AgreeUpToTiming (s.taken.finishEdge lat) (s'.taken.finishEdge lat') where
  pins := by simp [h.pins, h.host]
  host := by simp [h.host]
  resetSeen := by simp [h.resetSeen]
  inReady := by simp
  results := by
    rw [taken_finishEdge_results, taken_finishEdge_results, h.results, h.accepts_eq, h.operands_eq, h.pins]

/-- Any number of edges with no reset keep the agreement. -/
theorem runEdges (h : AgreeUpToTiming s s') (lat lat' : Nat) {k : Nat} (hr : NoReset (s.drives k))
    (hs : s.resetSeen = true) :
    ∃ t t', Machine.runEdges lat k s = .next t ∧ Machine.runEdges lat' k s' = .next t' ∧ AgreeUpToTiming t t' := by
  induction k generalizing s s' with
  | zero => exact ⟨s, s', rfl, rfl, h⟩
  | succ k ih =>
    obtain ⟨hrst, hrest⟩ := noReset_drives_succ hr
    have hedge : clockEdge lat s = .next (s.taken.finishEdge lat) := clockEdge_of_running hs hrst
    have hedge' : clockEdge lat' s' = .next (s'.taken.finishEdge lat') :=
      clockEdge_of_running (h.resetSeen ▸ hs) (h.pins ▸ hrst)
    rw [runEdges_succ hedge, runEdges_succ hedge']
    exact ih (h.taken_finishEdge lat lat') (noReset_after (by simp) (by simp) hrest) (by simpa using hs)

end AgreeUpToTiming

/-- Settles O39: both runs start from one state, and every edge keeps the agreement up to timing. -/
theorem resultsDoNotDependOnLatency : Obligations.ResultsDoNotDependOnLatency := by
  intro lat lat' k s hr hs
  have hself : AgreeUpToTiming s s := ⟨rfl, rfl, rfl, rfl, rfl⟩
  obtain ⟨t, t', ht, ht', hagree⟩ := hself.runEdges lat lat' hr hs
  exact ⟨t, t', ht, ht', hagree.results, hagree.inReady⟩

end Sys2Proof.Machine

/-! PROOFS. Family `10_state.md`: one operation's effect and frame (R20 to R22, R29), the handshake (R23, R24), and the
pipeline from acceptance to presentation (R25 to R28). -/

namespace Sys2Proof.Machine

/-! ### One edge with no reset: acceptance, then presentation -/

theorem taken_of_accepts {s : State} (h : s.accepts = true) :
    s.taken = s.tick.deliver (operationFunction s.pins.inOp s.operands) := by
  simp [State.taken, h]

theorem taken_of_not_accepts {s : State} (h : s.accepts = false) : s.taken = s.tick := by
  simp [State.taken, h]

@[simp] theorem taken_inReady (s : State) : s.taken.inReady = s.inReady := by unfold State.taken; split <;> rfl

theorem taken_pipeline (s : State) : s.taken.pipeline =
    s.pipeline.map Entry.older ++
      (if s.accepts then [⟨operationFunction s.pins.inOp s.operands, 0⟩] else []) := by
  unfold State.taken; split <;> simp [*]

/-- The first edge of a run without a reset, and the rest of the run after it. -/
theorem clockEdge_of_noReset {k : Nat} {s : State} (lat : Nat) (hseen : s.resetSeen = true)
    (hr : NoReset (s.drives (k + 1))) :
    clockEdge lat s = .next (s.taken.finishEdge lat) ∧ (s.taken.finishEdge lat).resetSeen = true ∧
      NoReset ((s.taken.finishEdge lat).drives k) := by
  obtain ⟨hrst, hrest⟩ := noReset_drives_succ hr
  exact ⟨clockEdge_of_running hseen hrst, by simpa using hseen, noReset_after (by simp) (by simp) hrest⟩

theorem present_of_not_due {lat : Nat} {s : State} (h : ∀ e, s.pipeline.head? = some e → e.age ≠ lat) :
    s.present lat = s.driveUnspecified false := by
  rcases present_cases lat s with ⟨-, hs⟩ | ⟨e, rest, hp, he, -⟩
  · exact hs
  · exact absurd he (h e (by simp [hp]))

theorem present_of_due {lat : Nat} {s : State} {e : Entry} {rest : List Entry} (hp : s.pipeline = e :: rest)
    (he : e.age = lat) : s.present lat = { s with pipeline := rest }.driveResult e.result := by
  simp [State.present, hp, he]

/-- The host's levels move on by one edge, and nothing else changes. -/
theorem nextPins_eq (s : State) :
    s.nextPins = { s with pins := s.host.headD s.pins.withdrawn, host := s.host.tail } := by
  unfold State.nextPins
  split <;> simp [*]

/-- An edge that accepts, in full: the result of `Exec` joins the operations in flight, which are one edge older; then
the outputs follow. -/
theorem clockEdge_of_accepts {s : State} (lat : Nat) (h : s.accepts = true) :
    clockEdge lat s =
      .next ((s.tick.deliver (operationFunction s.pins.inOp s.operands)).finishEdge lat) := by
  obtain ⟨hseen, hrst, -, -⟩ := (accepts_iff s).1 h
  rw [clockEdge_of_running hseen hrst, taken_of_accepts h]

/-- The state presents `r` as the next result after `earlier` (R25). -/
structure Presents (r : Result Config.lanes) (earlier : List (Result Config.lanes)) (s : State) : Prop where
  outValid : s.outValid = true
  outY : s.outY = r.y
  outT : s.outT = r.t
  outStatus : s.outStatus = r.s.code
  trace : s.trace = earlier ++ [r]

theorem Presents.capture {r : Result Config.lanes} {earlier : List (Result Config.lanes)} {s : State}
    (h : Presents r earlier s) : s.capture = some (r.s.code, r.y, r.t) := by
  simp [State.capture, h.outValid, h.outY, h.outT, h.outStatus]

theorem presents_finishEdge_of_due {lat : Nat} {s : State} {e : Entry} {rest : List Entry}
    (hp : s.pipeline = e :: rest) (he : e.age = lat) : Presents e.result s.trace (s.finishEdge lat) := by
  constructor <;> simp [present_of_due hp he]

/-- What an edge leaves on the outputs: nothing, or the one result it appends to the trace (R26, R27). -/
theorem finishEdge_outputs (lat : Nat) (s : State) :
    ((s.finishEdge lat).outValid = false ∧ (s.finishEdge lat).trace = s.trace) ∨
    ∃ r, Presents r s.trace (s.finishEdge lat) := by
  rcases present_cases lat s with ⟨-, h⟩ | ⟨e, rest, hp, he, -⟩
  · exact .inl (by simp [h])
  · exact .inr ⟨e.result, presents_finishEdge_of_due hp he⟩

/-- While `out_valid` is 0 a host captures nothing (R27, R115). -/
theorem capture_of_not_valid {s : State} (h : s.outValid = false) : s.capture = none := by
  simp [State.capture, h]

theorem finishEdge_capture (lat : Nat) (s : State) : (s.finishEdge lat).capture = (s.present lat).capture := by
  simp [State.capture]

/-! ### Every edge keeps the invariant -/

/-- Every legal operation's result is proper: it is `OK`, and only a reduction sets `T`, with the all-ones mask
(R74). -/
theorem proper_operationResult {n : Nat} (i : Instr) (o : Operands n) : (operationResult i o).Proper := by
  refine ⟨fun hs => absurd (operationResult_s i o) hs, fun ht => ⟨operationResult_s i o, ?_⟩⟩
  by_cases hall : i = .all
  · subst hall
    exact congrArg (fun b => bcast (mask b)) ht
  · by_cases hany : i = .any
    · subst hany
      exact congrArg (fun b => bcast (mask b)) ht
    · rw [operationResult_t i o hall hany] at ht
      cases ht

theorem proper_illegalResult {n : Nat} (code : Status) : (illegalResult code : Result n).Proper :=
  ⟨fun _ => ⟨rfl, rfl⟩, fun ht => nomatch ht⟩

/-- `Exec` gives a proper result on every word and operands (R74, R93). -/
theorem proper_operationFunction {n : Nat} (op : BitVec 32) (o : Operands n) : (operationFunction op o).Proper := by
  unfold operationFunction
  cases decode op with
  | legal i => exact proper_operationResult i o
  | illegalOpcode => exact proper_illegalResult _
  | reservedField => exact proper_illegalResult _

/-- Presenting what is due leaves a pipeline in order with nothing overdue: an entry of age `lat` can only be the
oldest, and it is the one that leaves. -/
theorem present_inOrder {lat : Nat} {s : State} (hord : s.pipeline.Pairwise (fun e f => f.age < e.age))
    (hage : ∀ e ∈ s.pipeline, e.age ≤ lat) : PipelineInOrder lat (s.present lat).pipeline := by
  rcases present_cases lat s with ⟨hhead, h⟩ | ⟨e, rest, hp, he, h⟩
  · rw [h, State.driveUnspecified_pipeline]
    refine ⟨hord, ?_⟩
    cases hp : s.pipeline with
    | nil => simp
    | cons e rest =>
      rw [hp] at hord hage hhead
      have hlt : e.age < lat := lt_of_le_of_ne (hage e (by simp)) (hhead e rfl)
      exact List.forall_mem_cons.2 ⟨hlt, fun f hf => (List.rel_of_pairwise_cons hord hf).trans hlt⟩
  · rw [h, State.driveResult_pipeline]
    rw [hp] at hord
    exact ⟨hord.of_cons, fun f hf => he ▸ List.rel_of_pairwise_cons hord hf⟩

namespace UnitInv

variable {lat : Nat} {s : State}

/-- The results of the trace and of the pipeline, as one list, are proper. -/
theorem results_proper (h : UnitInv lat s) : ∀ r ∈ s.trace ++ s.pending, r.Proper := by
  intro r hr
  rcases List.mem_append.1 hr with hr | hr
  · exact h.traceProper r hr
  · obtain ⟨e, he, rfl⟩ := List.mem_map.1 hr
    exact h.pendingProper e he

theorem resetEdge (h : UnitInv lat s) : UnitInv lat s.resetEdge where
  inOrder := by simp [PipelineInOrder]
  pendingProper := by simp
  traceProper := by simpa using h.traceProper
  inReset := by simp
  poweredUp := by simp
  presented := by simp

theorem powerUpEdge (h : UnitInv lat s) (hseen : s.resetSeen = false) : UnitInv lat s.powerUpEdge where
  inOrder := by simpa using h.inOrder
  pendingProper := by simpa using h.pendingProper
  traceProper := by simpa using h.traceProper
  inReset := by simp [hseen]
  poweredUp := by simpa using h.poweredUp
  presented := by simp [hseen]

theorem taken_finishEdge (h : UnitInv lat s) (hseen : s.resetSeen = true) :
    UnitInv lat (s.taken.finishEdge lat) := by
  have hresults : ∀ r ∈ (s.taken.finishEdge lat).trace ++ (s.taken.finishEdge lat).pending, r.Proper := by
    rw [taken_finishEdge_results]
    intro r hr
    rcases List.mem_append.1 hr with hr | hr
    · exact h.results_proper r hr
    · split at hr
      · exact List.mem_singleton.1 hr ▸ proper_operationFunction _ _
      · cases hr
  exact {
    inOrder := by
      obtain ⟨hord, hage⟩ := taken_inOrder h.inOrder
      rw [State.finishEdge_pipeline]
      exact present_inOrder hord hage
    pendingProper := fun e he => hresults _ (List.mem_append_right _ (List.mem_map_of_mem he))
    traceProper := fun r hr => hresults _ (List.mem_append_left _ hr)
    inReset := by simp
    poweredUp := by simp [hseen]
    presented := by
      intro _ hv
      rcases finishEdge_outputs lat s.taken with ⟨hv', -⟩ | ⟨r, hr⟩
      · rw [hv'] at hv
        cases hv
      · exact ⟨r, by rw [hr.trace, List.getLast?_concat], hr.outY, hr.outT, hr.outStatus⟩ }

/-- Every edge keeps the invariant, by the three cases of an edge. -/
theorem clockEdge (h : UnitInv lat s) {t : State} (ht : Machine.clockEdge lat s = .next t) : UnitInv lat t := by
  rcases clockEdge_cases lat s with ⟨-, he⟩ | ⟨-, hseen, he⟩ | ⟨-, hseen, he⟩ <;>
    obtain rfl := Host.Outcome.next.inj (he.symm.trans ht)
  · exact h.resetEdge
  · exact h.powerUpEdge hseen
  · exact h.taken_finishEdge hseen

end UnitInv

/-- Settles O46: the invariant is kept by each of the three cases of an edge, and `step` is an edge. -/
theorem everyEdgeKeepsTheInvariant : Obligations.EveryEdgeKeepsTheInvariant :=
  ⟨fun _ _ _ h ht => h.clockEdge ht, fun _ _ h ht => h.clockEdge ht⟩

/-! ### From acceptance to presentation -/

/-- The result `r` is in flight at age `age`, and `earlier` are the results presented and in flight before it. -/
def InFlight (r : Result Config.lanes) (earlier : List (Result Config.lanes)) (age : Nat) (s : State) : Prop :=
  ∃ older younger, s.pipeline = older ++ ⟨r, age⟩ :: younger ∧ s.trace ++ older.map Entry.result = earlier

theorem map_result_map_older (p : List Entry) : (p.map Entry.older).map Entry.result = p.map Entry.result := by
  rw [List.map_map]
  rfl

/-- An accepted operation is in flight at age 0, behind all that is presented or in flight. -/
theorem inFlight_of_accepts {s : State} (h : s.accepts = true) :
    InFlight (operationFunction s.pins.inOp s.operands) (s.trace ++ s.pending) 0 s.taken := by
  refine ⟨s.pipeline.map Entry.older, [], ?_, ?_⟩
  · rw [taken_pipeline, if_pos h]
  · rw [taken_trace, map_result_map_older, State.pending]

namespace InFlight

variable {r : Result Config.lanes} {earlier : List (Result Config.lanes)} {age lat : Nat} {s : State}

/-- While `r` waits, only earlier results have been presented. -/
theorem trace_length_le (h : InFlight r earlier age s) : s.trace.length ≤ earlier.length := by
  obtain ⟨older, younger, -, rfl⟩ := h
  simp

/-- The acceptance part of an edge makes a waiting operation one edge older and changes nothing before it. -/
theorem taken (h : InFlight r earlier age s) : InFlight r earlier (age + 1) s.taken := by
  obtain ⟨older, younger, hp, ht⟩ := h
  refine ⟨older.map Entry.older, younger.map Entry.older ++
    (if s.accepts then [⟨operationFunction s.pins.inOp s.operands, 0⟩] else []), ?_, ?_⟩
  · simp [taken_pipeline, hp, Entry.older]
  · rw [taken_trace, map_result_map_older, ht]

/-- An operation that is not yet due stays in flight while an older one may be presented. -/
theorem finishEdge (h : InFlight r earlier age s) (hage : age < lat) :
    InFlight r earlier age (s.finishEdge lat) := by
  obtain ⟨older, younger, hp, ht⟩ := h
  unfold InFlight
  rw [State.finishEdge_pipeline, State.finishEdge_trace]
  rcases present_cases lat s with ⟨-, h⟩ | ⟨e, rest, hp', he, h⟩
  · exact ⟨older, younger, by rw [h]; exact hp, by rw [h]; exact ht⟩
  · rw [hp] at hp'
    cases older with
    | nil =>
      obtain ⟨rfl, -⟩ := List.cons.inj hp'
      exact absurd he hage.ne
    | cons f older =>
      obtain ⟨rfl, rfl⟩ := List.cons.inj hp'
      exact ⟨older, younger, by rw [h]; rfl, by simpa [h] using ht⟩

/-- An operation whose age has reached `lat` is the oldest in flight, so the edge presents it. -/
theorem presents (h : InFlight r earlier lat s) (hord : s.pipeline.Pairwise (fun e f => f.age < e.age))
    (hage : ∀ e ∈ s.pipeline, e.age ≤ lat) : Presents r earlier (s.finishEdge lat) := by
  obtain ⟨older, younger, hp, rfl⟩ := h
  rw [hp] at hord hage
  obtain rfl : older = [] := by
    refine List.eq_nil_iff_forall_not_mem.2 fun e he => ?_
    have hlt : lat < e.age := (List.pairwise_append.1 hord).2.2 e he ⟨r, lat⟩ (by simp)
    exact absurd (hage e (by simp [he])) hlt.not_ge
  simpa using presents_finishEdge_of_due (lat := lat) hp rfl

/-- A run from an edge within which the operation is `n` edges from its cycle: the first `n` edges do not present it
and the next does, by induction on `n`. -/
theorem runEdges {n : Nat} (h : InFlight r earlier age s.taken) (hn : age + n = lat) (hinv : UnitInv lat s)
    (hseen : s.resetSeen = true) (hr : NoReset (s.drives (n + 1))) :
    (∀ k, k ≤ n → ∃ t, Machine.runEdges lat k s = .next t ∧ t.trace.length ≤ earlier.length) ∧
    ∃ t, Machine.runEdges lat (n + 1) s = .next t ∧ Presents r earlier t := by
  induction n generalizing s age with
  | zero =>
    obtain ⟨hedge, -, -⟩ := clockEdge_of_noReset lat hseen hr
    obtain rfl : age = lat := hn
    obtain ⟨hord, hage⟩ := taken_inOrder hinv.inOrder
    exact ⟨fun k hk => ⟨s, by rw [Nat.le_zero.1 hk]; rfl, taken_trace s ▸ h.trace_length_le⟩, _, runEdges_succ hedge,
      h.presents hord hage⟩
  | succ n ih =>
    obtain ⟨hedge, hseen', hr'⟩ := clockEdge_of_noReset lat hseen hr
    have hnext : InFlight r earlier age (s.taken.finishEdge lat) := h.finishEdge (by omega)
    obtain ⟨hbefore, hat⟩ := ih hnext.taken (by omega) (hinv.taken_finishEdge hseen) hseen' hr'
    refine ⟨fun k hk => ?_, by rwa [runEdges_succ hedge]⟩
    cases k with
    | zero => exact ⟨s, rfl, taken_trace s ▸ h.trace_length_le⟩
    | succ k =>
      rw [runEdges_succ hedge]
      exact hbefore k (by omega)

end InFlight

/-- Settles O36: the accepted operation is in flight at age 0, every edge makes it one edge older, and at age `LATENCY`
it is the oldest and is presented. -/
theorem resultAppearsAfterLatency : Obligations.ResultAppearsAfterLatency := by
  intro lat s hinv ha hr
  obtain ⟨hseen, hrst, -, -⟩ := (accepts_iff s).1 ha
  have hdrives : NoReset (s.drives (lat + 1)) := List.forall_mem_cons.2 ⟨hrst, hr⟩
  obtain ⟨hbefore, t, ht, hpresents⟩ := (inFlight_of_accepts ha).runEdges (Nat.zero_add lat) hinv hseen hdrives
  simp only [List.length_append] at hbefore
  exact ⟨hbefore, t, ht, hpresents.outValid, hpresents.outY, hpresents.outT, hpresents.outStatus, hpresents.trace⟩

/-! ### Results in acceptance order -/

/-- What `Exec` gives on the levels of one edge. -/
def Pins.result (p : Pins) : Result Config.lanes := operationFunction p.inOp p.operands

/-- A ready unit accepts at an edge with no reset exactly when an operation is offered. -/
theorem accepts_of_ready {s : State} (hseen : s.resetSeen = true) (hready : s.inReady = true)
    (hrst : s.pins.rst = false) : s.accepts = s.pins.inValid := by
  simp [State.accepts, hseen, hready, hrst]

/-- The operations offered after an edge are those left on the host's list: past its end nothing is offered. -/
theorem offers_after {s t : State} (k : Nat) (hp : t.pins = s.host.headD s.pins.withdrawn)
    (hh : t.host = s.host.tail) : (t.drives k).filter Pins.inValid = (s.host.take k).filter Pins.inValid := by
  rcases drives_after (k := k) hp hh with h | ⟨hnil, h⟩
  · rw [h]
  · rw [hnil, List.take_nil, List.filter_nil, List.filter_eq_nil_iff]
    intro p hp
    simp [(h p hp).2]

/-- The results presented and in flight after a run without a reset, by induction on the edges: each edge adds what it
accepts. -/
theorem runEdges_results {k : Nat} (lat : Nat) {s : State} (hseen : s.resetSeen = true) (hready : s.inReady = true)
    (hr : NoReset (s.drives k)) :
    ∃ t, runEdges lat k s = .next t ∧
      t.trace ++ t.pending = s.trace ++ s.pending ++ ((s.drives k).filter Pins.inValid).map Pins.result := by
  induction k generalizing s with
  | zero => exact ⟨s, rfl, by simp [State.drives]⟩
  | succ k ih =>
    obtain ⟨hrst, -⟩ := noReset_drives_succ hr
    obtain ⟨hedge, hseen', hr'⟩ := clockEdge_of_noReset lat hseen hr
    obtain ⟨t, ht, hresults⟩ := ih hseen' (State.finishEdge_inReady s.taken lat) hr'
    refine ⟨t, (runEdges_succ hedge).trans ht, ?_⟩
    rw [hresults, taken_finishEdge_results, offers_after (s := s) k (by simp) (by simp),
      accepts_of_ready hseen hready hrst, List.append_assoc]
    congr 1
    rw [State.drives, List.take_succ_cons, List.filter_cons]
    split <;> rfl

/-- Settles O37, by induction on the edges. -/
theorem resultsInAcceptanceOrder : Obligations.ResultsInAcceptanceOrder :=
  fun lat _ _ hseen hready hr => runEdges_results lat hseen hready hr

/-! ### One operation: its effect and its frame -/

/-- R95's result, with its `Y` written as the all-zero vector. -/
theorem illegalResult_eq {n : Nat} (code : Status) : (illegalResult code : Result n) = ⟨code, 0#_, false⟩ := by
  rw [illegalResult, bcast_zeroWord]

theorem operationFunction_of_legal {n : Nat} {op : BitVec 32} {i : Instr} (h : decode op = .legal i)
    (o : Operands n) : operationFunction op o = operationResult i o := by
  simp [operationFunction, h]

/-- `Exec` completes with status `OK` exactly on the legal words (R93). -/
theorem operationFunction_s_eq_ok_iff {n : Nat} (op : BitVec 32) (o : Operands n) :
    (operationFunction op o).s = .ok ↔ ∃ i, decode op = .legal i := by
  unfold operationFunction
  cases decode op <;> simp [illegalResult]

/-- Settles O9: the machine's path gives the result of `Exec`, which is the decoded operation's or R95's. -/
theorem acceptedWordDeliversExec : Obligations.AcceptedWordDeliversExec := by
  intro s
  refine ⟨runAccepted_eq s, operationFunction_s_eq_ok_iff _ _, fun i hi => ?_, fun hd => ?_, fun hd => ?_⟩
  · simp [runAccepted, hi]
  · simp [operationFunction, illegalResult_eq, hd]
  · simp [operationFunction, illegalResult_eq, hd]

/-- Settles O10: the function of the operands is `operationResult i`, and `deliver` touches the pipeline alone. -/
theorem operationsChangeOnlyThePipeline : Obligations.OperationsChangeOnlyThePipeline := fun i =>
  ⟨operationResult i, fun o => ⟨operationResult_s i o, operationResult_t i o⟩, fun s =>
    ⟨s.deliver (operationResult i s.operands), exec_eq i s, rfl, rfl, rfl, rfl, rfl, rfl, rfl, rfl, rfl, rfl,
      rfl⟩⟩

/-- The edge that accepts a word runs the operation it decodes to, on the unit with its operations one edge older. -/
theorem clockEdge_exec {s : State} {i : Instr} (lat : Nat) (ha : s.accepts = true)
    (hi : decode s.pins.inOp = .legal i) :
    ∃ t, exec i s.tick = .next t ∧ clockEdge lat s = .next (t.finishEdge lat) :=
  ⟨_, exec_eq i s.tick, by rw [clockEdge_of_accepts lat ha, operationFunction_of_legal hi, State.tick_operands]⟩

/-- Settles O8: an accepting edge is `exec` and then the outputs, and an offer is what such an edge accepts. -/
theorem stepRunsTheDecodedOperation : Obligations.StepRunsTheDecodedOperation :=
  ⟨fun lat _ _ ha hi => clockEdge_exec lat ha hi, fun _ _ ha hi => clockEdge_exec Config.latency ha hi,
    fun s _ _ => ⟨State.offer_accepts s _, State.offer_inOp s _⟩⟩

/-! ### The handshake -/

/-- An edge that neither resets nor accepts adds nothing to the results. -/
theorem clockEdge_results_of_not_accepts (lat : Nat) {s : State} (ha : s.accepts = false) (hr : s.pins.rst = false) :
    ∃ t, clockEdge lat s = .next t ∧ t.trace ++ t.pending = s.trace ++ s.pending := by
  cases hseen : s.resetSeen with
  | false => exact ⟨_, clockEdge_of_powerUp hseen hr, by simp⟩
  | true => exact ⟨_, clockEdge_of_running hseen hr, (taken_finishEdge_results lat s).trans (by simp [ha])⟩

/-- What the host will drive later does not enter the outputs of an edge. -/
theorem present_host_irrelevant (lat : Nat) (s : State) (h : List Pins) :
    State.present lat { s with host := h } = { s.present lat with host := h } := by
  rcases present_cases lat s with ⟨hnot, hs⟩ | ⟨e, rest, hp, he, hs⟩
  · rw [hs]
    exact present_of_not_due hnot
  · rw [hs]
    exact present_of_due hp he

theorem finishEdge_host_irrelevant (lat : Nat) (s : State) (h : List Pins) :
    State.finishEdge lat { s with host := h } =
      { s.finishEdge lat with pins := h.headD s.pins.withdrawn, host := h.tail } := by
  simp [State.finishEdge, nextPins_eq, present_host_irrelevant]

theorem taken_host_irrelevant (s : State) (h : List Pins) :
    State.taken { s with host := h } = { s.taken with host := h } := by
  cases ha : s.accepts with
  | false => rw [taken_of_not_accepts ha]; exact taken_of_not_accepts ha
  | true => rw [taken_of_accepts ha]; exact taken_of_accepts ha

theorem resetEdge_host_irrelevant (s : State) (h : List Pins) :
    State.resetEdge { s with host := h } =
      { s.resetEdge with pins := h.headD s.pins.withdrawn, host := h.tail } := by
  simp [State.resetEdge, nextPins_eq, State.driveUnspecified]

theorem powerUpEdge_host_irrelevant (s : State) (h : List Pins) :
    State.powerUpEdge { s with host := h } =
      { s.powerUpEdge with pins := h.headD s.pins.withdrawn, host := h.tail } := by
  simp [State.powerUpEdge, nextPins_eq, State.driveUnspecified]

/-- What an edge does is fixed by the levels it samples: the host's list enters only as the levels that follow. -/
theorem clockEdge_host_irrelevant (lat : Nat) {s t : State} (h : List Pins) (ht : clockEdge lat s = .next t) :
    clockEdge lat { s with host := h } = .next { t with pins := h.headD s.pins.withdrawn, host := h.tail } := by
  rcases clockEdge_cases lat s with ⟨hr, he⟩ | ⟨hr, hseen, he⟩ | ⟨hr, hseen, he⟩ <;>
    obtain rfl := Host.Outcome.next.inj (he.symm.trans ht)
  · rw [← resetEdge_host_irrelevant]
    exact clockEdge_of_reset hr
  · rw [← powerUpEdge_host_irrelevant]
    exact clockEdge_of_powerUp hseen hr
  · rw [clockEdge_of_running (s := { s with host := h }) hseen hr, taken_host_irrelevant, finishEdge_host_irrelevant,
      taken_pins]

/-- Settles O34: acceptance is the handshake's condition, and the results after an edge are those before it with what
it accepted; a reset leaves those presented. -/
theorem acceptanceFollowsTheHandshake : Obligations.AcceptanceFollowsTheHandshake := by
  refine ⟨accepts_iff, ?_, fun lat _ ha hr => clockEdge_results_of_not_accepts lat ha hr, ?_, ?_⟩
  · intro lat s ha
    refine ⟨_, clockEdge_of_accepts lat ha, ?_⟩
    rw [← taken_of_accepts ha, taken_finishEdge_results, if_pos ha]
    rfl
  · intro lat s hr
    exact ⟨_, clockEdge_of_reset hr, by simp⟩
  · intro lat s h t u ht hu
    exact Host.Outcome.next.inj (hu.symm.trans (clockEdge_host_irrelevant lat h ht))

/-- Settles O35, by the three cases of an edge. -/
theorem readinessFollowsReset : Obligations.ReadinessFollowsReset := by
  intro lat s
  rcases clockEdge_cases lat s with ⟨hr, h⟩ | ⟨hr, hseen, h⟩ | ⟨hr, hseen, h⟩ <;> refine ⟨_, h, ?_⟩
  · simp [hr]
  · simp [hr, hseen]
  · simp [hr]

/-! ### The outputs -/

/-- Settles O38: a reset edge presents nothing, and any other leaves nothing or one result on the outputs. -/
theorem atMostOneResultPerCycle : Obligations.AtMostOneResultPerCycle := by
  intro lat s hs
  cases hr : s.pins.rst with
  | true =>
    exact ⟨_, clockEdge_of_reset hr, .inl ⟨by simp, by simp, capture_of_not_valid (by simp)⟩⟩
  | false =>
    have hseen : s.resetSeen = true := hs.resolve_right (by simp [hr])
    refine ⟨_, clockEdge_of_running hseen hr, ?_⟩
    rcases finishEdge_outputs lat s.taken with ⟨hv, ht⟩ | ⟨r, hr⟩
    · exact .inl ⟨hv, ht.trans (by simp), capture_of_not_valid hv⟩
    · exact .inr ⟨r, hr.outValid, hr.trace.trans (by simp), hr.capture⟩

/-- Two units that agree in all but their output levels and the counter of the free values. -/
structure AgreeButOutputs (s s' : State) : Prop where
  pins : s.pins = s'.pins
  host : s.host = s'.host
  resetSeen : s.resetSeen = s'.resetSeen
  inReady : s.inReady = s'.inReady
  pipeline : s.pipeline = s'.pipeline
  trace : s.trace = s'.trace

namespace AgreeButOutputs

variable {s s' : State}

theorem agreeUpToTiming (h : AgreeButOutputs s s') : AgreeUpToTiming s s' where
  pins := h.pins
  host := h.host
  resetSeen := h.resetSeen
  inReady := h.inReady
  results := by simp [State.pending, h.pipeline, h.trace]

theorem taken (h : AgreeButOutputs s s') : AgreeButOutputs s.taken s'.taken where
  pins := by simp [h.pins]
  host := by simp [h.host]
  resetSeen := by simp [h.resetSeen]
  inReady := by simp [h.inReady]
  pipeline := by
    rw [taken_pipeline, taken_pipeline, h.pipeline, h.agreeUpToTiming.accepts_eq, h.agreeUpToTiming.operands_eq, h.pins]
  trace := by simp [h.trace]

theorem resetEdge (h : AgreeButOutputs s s') : AgreeButOutputs s.resetEdge s'.resetEdge where
  pins := by simp [h.pins, h.host]
  host := by simp [h.host]
  resetSeen := by simp
  inReady := by simp
  pipeline := by simp
  trace := by simp [h.trace]

/-- The outputs of an edge come from the pipeline alone, so units that agree on it present the same. -/
theorem present (h : AgreeButOutputs s s') (lat : Nat) :
    AgreeButOutputs (s.present lat) (s'.present lat) ∧ (s.present lat).outValid = (s'.present lat).outValid ∧
      (s.present lat).capture = (s'.present lat).capture := by
  rcases present_cases lat s with ⟨hnot, hs⟩ | ⟨e, rest, hp, he, hs⟩
  · have hs' : s'.present lat = s'.driveUnspecified false := present_of_not_due (h.pipeline ▸ hnot)
    rw [hs, hs']
    exact ⟨⟨h.pins, h.host, h.resetSeen, h.inReady, h.pipeline, h.trace⟩, rfl, rfl⟩
  · have hs' := present_of_due (h.pipeline ▸ hp : s'.pipeline = e :: rest) he
    rw [hs, hs']
    exact ⟨⟨h.pins, h.host, h.resetSeen, h.inReady, rfl, congrArg (· ++ [e.result]) h.trace⟩, rfl, rfl⟩

theorem finishEdge (h : AgreeButOutputs s s') (lat : Nat) :
    AgreeButOutputs (s.finishEdge lat) (s'.finishEdge lat) where
  pins := by simp [h.pins, h.host]
  host := by simp [h.host]
  resetSeen := by simp [h.resetSeen]
  inReady := by simp
  pipeline := by simpa using (h.present lat).1.pipeline
  trace := by simpa using (h.present lat).1.trace

/-- An edge of a unit that has been reset keeps the agreement, and the two units then agree also in `out_valid` and in
what a host may capture. -/
theorem clockEdge (h : AgreeButOutputs s s') (lat : Nat) (hseen : s.resetSeen = true) :
    ∃ t t', Machine.clockEdge lat s = .next t ∧ Machine.clockEdge lat s' = .next t' ∧ AgreeButOutputs t t' ∧
      t.outValid = t'.outValid ∧ t.capture = t'.capture := by
  cases hr : s.pins.rst with
  | true =>
    exact ⟨_, _, clockEdge_of_reset hr, clockEdge_of_reset (h.pins ▸ hr), h.resetEdge, by simp,
      by rw [capture_of_not_valid (by simp), capture_of_not_valid (by simp)]⟩
  | false =>
    obtain ⟨-, hvalid, hcapture⟩ := h.taken.present lat
    exact ⟨_, _, clockEdge_of_running hseen hr, clockEdge_of_running (h.resetSeen ▸ hseen) (h.pins ▸ hr),
      h.taken.finishEdge lat, by simpa using hvalid, by rw [finishEdge_capture, finishEdge_capture, hcapture]⟩

end AgreeButOutputs

/-- Settles O40: the two units agree in all that an edge reads. -/
theorem outputsAreNeverRead : Obligations.OutputsAreNeverRead := by
  intro lat s v y b c k hseen
  have hsame : AgreeButOutputs s { s with outValid := v, outY := y, outT := b, outStatus := c, freeIndex := k } :=
    ⟨rfl, rfl, rfl, rfl, rfl, rfl⟩
  obtain ⟨t, t', ht, ht', hagree, hvalid, hcapture⟩ := hsame.clockEdge lat hseen
  exact ⟨t, t', ht, ht', hagree.trace, hagree.pipeline, hagree.inReady, hvalid, hcapture, hagree.pins, hagree.host,
    hagree.resetSeen⟩

end Sys2Proof.Machine

/-! PROOFS. Family `30_encoding.md`: decoder, encoder and opcode map (R44 to R53, R56, R57), the operands an operation
reads (R48), program lines and pseudo-instructions (R54, R55). -/

namespace Sys2Proof.Machine

/-! ### The outcomes of the decoder -/

theorem opcNumber_eq_pot_iff (op : BitVec 32) : opcNumber op = 0x30 ↔ opcField op = 0x30#8 := by
  rw [← opcField_toNat, ← BitVec.toNat_inj, BitVec.toNat_ofNat]

theorem imm6Number_eq_zero_iff (op : BitVec 32) : imm6Number op = 0 ↔ imm6Field op = 0#6 := by
  rw [← imm6Field_toNat, ← BitVec.toNat_inj, BitVec.toNat_ofNat]

theorem rsvdNumber_eq_zero_iff (op : BitVec 32) : rsvdNumber op = 0 ↔ rsvdField op = 0#18 := by
  rw [← rsvdField_toNat, ← BitVec.toNat_inj, BitVec.toNat_ofNat]

/-- The decoder's test of the fields that must be 0: `RSVD`, and `IMM6` in every word but one of `POT` (R50). -/
abbrev ReservedFieldsZero (op : BitVec 32) : Prop :=
  rsvdField op = 0#18 ∧ (opcField op = 0x30#8 ∨ imm6Field op = 0#6)

theorem reservedFieldsZero_iff (op : BitVec 32) :
    ReservedFieldsZero op ↔ rsvdNumber op = 0 ∧ (opcNumber op = 0x30 ∨ imm6Number op = 0) := by
  rw [rsvdNumber_eq_zero_iff, opcNumber_eq_pot_iff, imm6Number_eq_zero_iff]

/-- An unassigned `OPC` is rejected whatever the other fields hold (R51). -/
theorem decode_of_not_assigned {op : BitVec 32} (h : ¬ AssignedOpcode (opcNumber op)) :
    decode op = .illegalOpcode := by
  have hnone : opcodeSelects (opcField op) (sint6 (imm6Field op)) = none :=
    (opcodeSelects_none _ _).2 (by rwa [opcField_toNat])
  simp [decode, hnone]

/-- The opcode map selects an operation for every assigned `OPC`. -/
theorem exists_opcodeSelects {op : BitVec 32} (h : AssignedOpcode (opcNumber op)) :
    ∃ i, opcodeSelects (opcField op) (sint6 (imm6Field op)) = some i :=
  Option.ne_none_iff_exists'.1 fun hnone => (opcodeSelects_none _ _).1 hnone (by rwa [opcField_toNat])

/-- An assigned `OPC` with a field that must be 0 and is not (R50). -/
theorem decode_of_reserved {op : BitVec 32} (h : AssignedOpcode (opcNumber op)) (hr : ¬ ReservedFieldsZero op) :
    decode op = .reservedField := by
  obtain ⟨i, hi⟩ := exists_opcodeSelects h
  simp only [decode, hi]
  split_ifs <;> tauto

/-- The legal words are those whose `OPC` the map assigns and whose reserved fields are 0 (R56). -/
theorem decode_eq_legal_iff {op : BitVec 32} {i : Instr} :
    decode op = .legal i ↔
      opcodeSelects (opcField op) (sint6 (imm6Field op)) = some i ∧ ReservedFieldsZero op := by
  refine ⟨decode_legal, fun ⟨hi, hr, hz⟩ => ?_⟩
  have hz' : ¬ (opcField op ≠ 0x30#8 ∧ imm6Field op ≠ 0#6) := by tauto
  simp only [decode, hi, if_neg hz', ne_eq, hr, not_true_eq_false, if_false]

theorem exists_decode_legal {op : BitVec 32} (h : AssignedOpcode (opcNumber op)) (hr : ReservedFieldsZero op) :
    ∃ i, decode op = .legal i := by
  obtain ⟨i, hi⟩ := exists_opcodeSelects h
  exact ⟨i, decode_eq_legal_iff.2 ⟨hi, hr⟩⟩

/-- A legal word's operation has the word's own `OPC` and `IMM6` (R45, R47, R49). -/
theorem fields_of_decode_legal {op : BitVec 32} {i : Instr} (h : decode op = .legal i) :
    i.opcode = opcField op ∧ i.imm6 = imm6Field op := by
  obtain ⟨hsel, -, hz⟩ := decode_eq_legal_iff.1 h
  obtain ⟨hopc, hother, hpot⟩ := opcodeSelects_some hsel
  refine ⟨hopc, ?_⟩
  by_cases hp : opcField op = 0x30#8
  · rw [hpot hp]
    exact (sint6_spec _).1
  · rw [hother hp, hz.resolve_left hp]

/-! ### Decode and encode -/

theorem fieldsOfTheWord (i : Instr) : Laws.FieldsOfTheWord.Statement i := by
  open Laws.FieldsOfTheWord in
  cases i
  exacts [and, or, xor, not, sel, cmpeq, cmpne, cmpgt, cmpge, cmplt, cmple, cmpz, cmpnz, all, any, add, sub, neg, rhadd,
    qrdmulh, qadd, qsub, qneg, pot _, dup]

theorem wellFormed_of_ne_pot {i : Instr} (h : ∀ e, i ≠ .pot e) : i.WellFormed := by
  cases i with
  | pot e => exact absurd rfl (h e)
  | _ => rfl

theorem wellFormed_pot {e : Int} : (Instr.pot e).WellFormed ↔ ExponentInRange e := decide_eq_true_iff

/-- Six bits hold every exponent in range (R47). -/
theorem sint6_ofInt {e : Int} (h : ExponentInRange e) : sint6 (BitVec.ofInt 6 e) = e := by
  rw [(sint6_spec _).2.2.2, BitVec.toInt_ofInt]
  exact Int.bmod_eq_of_le (by omega) (by omega)

/-- The decoder's and the assembler's readings of the opcode map agree (R49). -/
theorem opcodeSelects_opcode {i : Instr} (h : i.WellFormed) : opcodeSelects i.opcode (sint6 i.imm6) = some i := by
  cases i with
  | pot e => exact congrArg (fun e => some (Instr.pot e)) (sint6_ofInt (wellFormed_pot.1 h))
  | _ => rfl

theorem opcode_eq_pot_or_imm6_eq_zero (i : Instr) : i.opcode = 0x30#8 ∨ i.imm6 = 0#6 := by
  cases i with
  | pot e => exact .inl rfl
  | _ => exact .inr rfl

theorem decode_encode {i : Instr} (h : i.WellFormed) : decode (encode i) = .legal i := by
  obtain ⟨hopc, himm, hrsvd, -⟩ := fieldsOfTheWord i
  rw [decode_eq_legal_iff, ReservedFieldsZero, hopc, himm, hrsvd]
  exact ⟨opcodeSelects_opcode h, rfl, opcode_eq_pot_or_imm6_eq_zero i⟩

theorem wellFormed_of_decode_legal {op : BitVec 32} {i : Instr} (h : decode op = .legal i) : i.WellFormed := by
  obtain ⟨hsel, -, -⟩ := decode_eq_legal_iff.1 h
  obtain ⟨hopc, -, hpot⟩ := opcodeSelects_some hsel
  cases i with
  | pot e =>
    obtain rfl := Instr.pot.inj (hpot hopc.symm)
    obtain ⟨-, hlow, hhigh, -⟩ := sint6_spec (imm6Field op)
    exact wellFormed_pot.2 ⟨hlow, hhigh⟩
  | _ => rfl

theorem encode_of_decode_legal {op : BitVec 32} {i : Instr} (h : decode op = .legal i) : encode i = op := by
  obtain ⟨hopc, himm⟩ := fields_of_decode_legal h
  obtain ⟨-, hrsvd, -⟩ := decode_eq_legal_iff.1 h
  have hword := word_eq_fields op
  rw [hrsvd] at hword
  rw [encode, hopc, himm]
  simpa using hword.symm

/-- Settles O5: the word of an operation has the operation's fields, and a legal word is the word of its fields. -/
theorem decodeAndEncodeAgree : Obligations.DecodeAndEncodeAgree :=
  ⟨fun _ h => decode_encode h, fun _ _ h => ⟨wellFormed_of_decode_legal h, encode_of_decode_legal h⟩⟩

/-- Settles O1, by running the decoder on the nine words. -/
theorem sampleWordsDecode : Obligations.SampleWordsDecode := by
  unfold Obligations.SampleWordsDecode
  decide

/-- Settles O2, by the three outcomes of the decoder, its fields read as numbers. -/
theorem decoderTestsInOrder : Obligations.DecoderTestsInOrder := by
  refine fun op => ⟨decode_of_not_assigned, fun ha hr => ?_, fun ha _ hp hz => ?_, fun ha hr hz => ?_⟩
  · exact decode_of_reserved ha fun h => hr ((reservedFieldsZero_iff op).1 h).1
  · exact decode_of_reserved ha fun h => ((reservedFieldsZero_iff op).1 h).2.elim hp hz
  · obtain ⟨i, hi⟩ := exists_decode_legal ha ((reservedFieldsZero_iff op).2 ⟨hr, hz⟩)
    exact ⟨i, hi, by rw [(fields_of_decode_legal hi).1, opcField_toNat]⟩

theorem operationFunction_of_illegalOpcode {n : Nat} {op : BitVec 32} (h : decode op = .illegalOpcode)
    (o : Operands n) : operationFunction op o = ⟨.illegalOpcode, 0#_, false⟩ := by
  simp [operationFunction, h, illegalResult_eq]

theorem operationFunction_of_reservedField {n : Nat} {op : BitVec 32} (h : decode op = .reservedField)
    (o : Operands n) : operationFunction op o = ⟨.reservedField, 0#_, false⟩ := by
  simp [operationFunction, h, illegalResult_eq]

/-- Settles O7: an accepted word delivers `Exec` of it, which is R95's result for each rejection and `OK` otherwise. -/
theorem malformedWordsCompleteWithAStatus : Obligations.MalformedWordsCompleteWithAStatus := by
  refine ⟨fun s ha => ?_, fun s ha hr => ?_, fun s ha hr hz => ?_, rfl, by decide⟩
  · rw [runAccepted_eq, operationFunction_of_illegalOpcode (decode_of_not_assigned ha)]
  · have hnot : ¬ ReservedFieldsZero s.pins.inOp := by rw [reservedFieldsZero_iff]; tauto
    rw [runAccepted_eq, operationFunction_of_reservedField (decode_of_reserved ha hnot)]
  · have hs := (operationFunction_s_eq_ok_iff s.pins.inOp s.operands).2
      (exists_decode_legal ha ((reservedFieldsZero_iff _).2 ⟨hr, hz⟩))
    exact ⟨_, _, by rw [runAccepted_eq, ← hs]⟩

/-! ### The immediate of `POT`, the rows of the opcode map, and the assembler -/

theorem encode_pot_toInt (v : BitVec 6) : encode (.pot v.toInt) = v.zeroExtend 32 <<< 8 ||| 0x30#32 :=
  congrArg (fun v : BitVec 6 => v.zeroExtend 32 <<< 8 ||| 0x30#32) BitVec.ofInt_toInt

theorem exponentInRange_toInt (v : BitVec 6) : ExponentInRange v.toInt := by
  obtain ⟨-, hlow, hhigh, htoInt⟩ := sint6_spec v
  exact htoInt ▸ ⟨hlow, hhigh⟩

/-- Every `IMM6` under the `OPC` of `POT` is a legal word (R47). -/
theorem decode_pot_word (v : BitVec 6) :
    decode (v.zeroExtend 32 <<< 8 ||| 0x30#32) = .legal (.pot v.toInt) := by
  rw [← encode_pot_toInt]
  exact decode_encode (wellFormed_pot.2 (exponentInRange_toInt v))

theorem imm6Field_eq_zero_of_ne_pot {op : BitVec 32} {i : Instr} (h : decode op = .legal i) (hi : ∀ e, i ≠ .pot e) :
    imm6Field op = 0#6 := by
  obtain ⟨hsel, -, hz⟩ := decode_eq_legal_iff.1 h
  exact hz.resolve_left fun hp => hi _ ((opcodeSelects_some hsel).2.2 hp)

/-- Settles O4: `POT`'s words are the encodings of the exponents 6 bits hold; the four named words are such words. -/
theorem potExponentIsSignedImmediate : Obligations.PotExponentIsSignedImmediate := by
  refine ⟨fun v => ⟨decode_pot_word v, (sint6_spec v).2.2.2.symm, exponentInRange_toInt v⟩, decode_pot_word 0x00#6,
    decode_pot_word 0x1F#6, decode_pot_word 0x20#6, decode_pot_word 0x3F#6, fun op i h hi => ?_⟩
  exact (imm6Number_eq_zero_iff op).2 (imm6Field_eq_zero_of_ne_pot h hi)

/-- The row of the opcode map an operation stands in (R49). -/
def opcodeRow (i : Instr) : OpcodeRow := ⟨mnemonic i, i.opcode.zeroExtend 32, i.tableMask⟩

theorem opcodeRow_mem (i : Instr) : opcodeRow i ∈ opcodeRows := by
  cases i <;> simp [opcodeRow, opcodeRows, mnemonic, Instr.opcode, Instr.tableMask]

/-- Every row is the row of `POT` or of an operation written without an immediate. -/
theorem eq_opcodeRow_of_mem :
    ∀ r ∈ opcodeRows, r = opcodeRow (.pot 0) ∨ ∃ p ∈ plainMnemonics, r = opcodeRow p.2 := by
  decide

theorem plainMnemonics_ne_pot : ∀ p ∈ plainMnemonics, ∀ e, p.2 ≠ .pot e := by
  simp [plainMnemonics]

theorem encode_of_ne_pot {i : Instr} (h : ∀ e, i ≠ .pot e) : encode i = i.opcode.zeroExtend 32 := by
  cases i with
  | pot e => exact absurd rfl (h e)
  | _ => rfl

theorem and_tableMask_of_ne_pot {i : Instr} (h : ∀ e, i ≠ .pot e) (op : BitVec 32) : op &&& i.tableMask = op := by
  cases i with
  | pot e => exact absurd rfl (h e)
  | _ => exact BitVec.and_allOnes

/-- The word of an operation matches the operation's row, whatever the exponent of `POT` (R49). -/
theorem encode_and_tableMask (i : Instr) : encode i &&& i.tableMask = i.opcode.zeroExtend 32 := by
  have hpot : ∀ v : BitVec 6, (v.zeroExtend 32 <<< 8 ||| 0x30#32) &&& 0xFFFFC0FF#32 = 0x30#32 := by decide
  by_cases h : ∀ e, i ≠ .pot e
  · rw [and_tableMask_of_ne_pot h, encode_of_ne_pot h]
  · obtain ⟨e, rfl⟩ := not_forall_not.1 h
    exact hpot (BitVec.ofInt 6 e)

/-- A word that matches the row of `POT` is `POT`'s, with the exponent in its `IMM6`: the row's mask leaves `OPC` and
`RSVD` as they are (R49). -/
theorem decode_of_matches_pot {op : BitVec 32} (h : op &&& 0xFFFFC0FF#32 = 0x30#32) :
    decode op = .legal (.pot (sint6 (imm6Field op))) := by
  have hopc : opcField op = 0x30#8 :=
    calc opcField op = opcField (op &&& 0xFFFFC0FF#32) := (BitVec.extractLsb'_and.trans BitVec.and_allOnes).symm
      _ = 0x30#8 := congrArg opcField h
  have hrsvd : rsvdField op = 0#18 :=
    calc rsvdField op = rsvdField (op &&& 0xFFFFC0FF#32) := (BitVec.extractLsb'_and.trans BitVec.and_allOnes).symm
      _ = 0#18 := congrArg rsvdField h
  exact decode_eq_legal_iff.2 ⟨by rw [hopc]; rfl, hrsvd, .inl hopc⟩

/-- A word that matches another row is that row's one word (R49). -/
theorem decode_of_matches_of_ne_pot {op : BitVec 32} {i : Instr} (hi : ∀ e, i ≠ .pot e)
    (h : op &&& i.tableMask = i.opcode.zeroExtend 32) : decode op = .legal i := by
  rw [and_tableMask_of_ne_pot hi, ← encode_of_ne_pot hi] at h
  exact h ▸ decode_encode (wellFormed_of_ne_pot hi)

/-- Settles O3: a legal word is an encoding, which matches its own row; and a word that matches a row decodes to it. -/
theorem legalWordsAreTheTableRows : Obligations.LegalWordsAreTheTableRows := by
  refine ⟨fun op i h => ⟨opcodeRow i, opcodeRow_mem i, ?_, rfl⟩, fun op r hr hmatch => ?_, rfl, by decide⟩
  · rw [← encode_of_decode_legal h]
    exact encode_and_tableMask i
  · obtain rfl | ⟨p, hp, rfl⟩ := eq_opcodeRow_of_mem r hr
    · exact ⟨_, decode_of_matches_pot hmatch, rfl⟩
    · exact ⟨p.2, decode_of_matches_of_ne_pot (plainMnemonics_ne_pot p hp) hmatch, rfl⟩

theorem namedOperation_mnemonic {i : Instr} (h : ∀ e, i ≠ .pot e) : namedOperation (mnemonic i) none = some i := by
  cases i with
  | pot e => exact absurd rfl (h e)
  | _ => rfl

/-- A mnemonic that no operation has names none (R53). -/
theorem namedOperation_of_unknown {name : String} (imm : Option Int) (h : ∀ i, mnemonic i ≠ name) :
    namedOperation name imm = none := by
  have hplain : ∀ p ∈ plainMnemonics, mnemonic p.2 = p.1 := by decide
  cases imm with
  | some e => exact if_neg fun hpot => h (.pot e) hpot.symm
  | none =>
    refine List.lookup_eq_none_iff.2 fun p hp => bne_iff_ne.2 fun hname => h p.2 ?_
    rw [hplain p hp, hname]

theorem assemble_of_namedOperation {name : String} {imm : Option Int} {i : Instr}
    (h : namedOperation name imm = some i) : assemble name imm = if i.WellFormed then some (encode i) else none := by
  simp [assemble, h]

theorem namedOperation_pot (e : Int) : namedOperation "POT" (some e) = some (.pot e) := rfl

/-- The word of `POT` as a number: the exponent modulo `2^6` above the `OPC` (R53). -/
theorem encode_pot (e : Int) : encode (.pot e) = BitVec.ofNat 32 ((e % 64).toNat * 256 + 0x30) := by
  have hword : ∀ v : BitVec 6, v.zeroExtend 32 <<< 8 ||| 0x30#32 = BitVec.ofNat 32 (v.toNat * 256 + 0x30) := by decide
  have himm : (BitVec.ofInt 6 e).toNat = (e % 64).toNat := BitVec.toNat_ofInt e
  rw [← himm]
  exact hword (BitVec.ofInt 6 e)

theorem assemble_pot {e : Int} (h : ExponentInRange e) :
    assemble "POT" (some e) = some (BitVec.ofNat 32 ((e % 64).toNat * 256 + 0x30)) := by
  rw [assemble_of_namedOperation (namedOperation_pot e), if_pos (wellFormed_pot.2 h), encode_pot]

/-- Settles O6: the assembler answers the encoding of the operation named when that is well formed, and else nothing. -/
theorem assemblerWritesTheWord : Obligations.AssemblerWritesTheWord := by
  refine ⟨fun i hi => ?_, fun e hlow hhigh => assemble_pot ⟨hlow, hhigh⟩, fun e he => ?_, fun name imm h => ?_, by decide,
    assemble_pot (e := 2) (by decide), assemble_pot (e := -1) (by decide), assemble_pot (e := -32) (by decide)⟩
  · rw [assemble_of_namedOperation (namedOperation_mnemonic hi), if_pos (wellFormed_of_ne_pot hi), encode_of_ne_pot hi,
      BitVec.ofNat_toNat]
  · rw [assemble_of_namedOperation (namedOperation_pot e), if_neg]
    exact fun hwf => by have := wellFormed_pot.1 hwf; omega
  · simp [assemble, namedOperation_of_unknown imm h]

/-! ### The operands an operation reads -/

/-- An operation that reads A alone does not depend on B and C (R48). -/
theorem operationResult_of_reads_a {n : Nat} {i : Instr} (h : reads i = [.a]) (a b b' c c' : Vec n) :
    operationResult i ⟨a, b, c⟩ = operationResult i ⟨a, b', c'⟩ := by
  cases i with
  | not | cmpz | cmpnz | all | any | neg | qneg | pot | dup => rfl
  | _ => cases h

/-- Only `SEL` reads C (R48). -/
theorem operationResult_of_ne_sel {n : Nat} {i : Instr} (h : i ≠ .sel) (a b c c' : Vec n) :
    operationResult i ⟨a, b, c⟩ = operationResult i ⟨a, b, c'⟩ := by
  cases i with
  | sel => exact absurd rfl h
  | _ => rfl

theorem reads_length_le_two {i : Instr} (h : i ≠ .sel) : (reads i).length ≤ 2 := by
  cases i with
  | sel => exact absurd rfl h
  | _ => simp [reads]

theorem reads_of_mem_oneOperand :
    ∀ i ∈ [Instr.not, .neg, .qneg, .cmpz, .cmpnz, .all, .any, .dup], reads i = [.a] := by
  decide

/-- Settles O11: the nine one-operand operations read A alone, all but `SEL` do without C, and `DUP` broadcasts lane
0. -/
theorem unlistedOperandsAreIgnored : Obligations.UnlistedOperandsAreIgnored := by
  refine ⟨fun n i a b c c' hi => operationResult_of_ne_sel hi a b c c', fun n i a b b' c hi => ?_, fun n a a' b c h => ?_,
    rfl, reads_of_mem_oneOperand, fun _ => rfl, by decide⟩
  · have hreads : reads i = [.a] := hi.elim (reads_of_mem_oneOperand i) fun ⟨e, he⟩ => he ▸ rfl
    exact operationResult_of_reads_a hreads a b b' c c
  · exact congrArg (fun w => vectorResult (bcast w)) h

/-! ### Program lines -/

section ProgramLines

variable {n : Nat} {l : Line} {vals : Values n} {o : Operands n} {i : Instr} {x y z : String} {va vb vc : Vec n}

/-- The ways in which a line does not run. -/
theorem run_eq_none_iff : l.run vals = none ↔
    (vals.lookup l.dst).isSome ∨ l.srcs.length < operandCount l.op ∨ vals.operands l.srcs = none := by
  simp only [Line.run, ite_eq_left_iff, Bool.or_eq_true, decide_eq_true_eq, Option.map_eq_none_iff]
  tauto

theorem run_of_operands (hnew : vals.lookup l.dst = none) (hcount : operandCount l.op ≤ l.srcs.length)
    (ho : vals.operands l.srcs = some o) : l.run vals = some (vals ++ [(l.dst, operationFunction l.op o)]) :=
  Line.run_eq_some_iff.2 ⟨hnew, hcount, o, ho, rfl⟩

theorem operands_one (hx : vals.vector x = some va) : vals.operands [x] = some ⟨va, 0#_, 0#_⟩ := by
  simp [Values.operands, hx]

theorem operands_two (hx : vals.vector x = some va) (hy : vals.vector y = some vb) :
    vals.operands [x, y] = some ⟨va, vb, 0#_⟩ := by
  simp [Values.operands, hx, hy]

theorem operands_three (hx : vals.vector x = some va) (hy : vals.vector y = some vb) (hz : vals.vector z = some vc) :
    vals.operands [x, y, z] = some ⟨va, vb, vc⟩ := by
  simp [Values.operands, hx, hy, hz]

/-- The sources of a line give no operands when one of them is not captured or there are more than the three ports. -/
theorem operands_eq_none_iff {srcs : List String} :
    vals.operands srcs = none ↔ (∃ x ∈ srcs, vals.vector x = none) ∨ 3 < srcs.length := by
  match srcs with
  | [] => simp [Values.operands]
  | [x] => cases hx : vals.vector x <;> simp [Values.operands, hx]
  | [x, y] => cases hx : vals.vector x <;> cases hy : vals.vector y <;> simp [Values.operands, hx, hy]
  | [x, y, z] =>
    cases hx : vals.vector x <;> cases hy : vals.vector y <;> cases hz : vals.vector z <;>
      simp [Values.operands, hx, hy, hz]
  | _ :: _ :: _ :: _ :: _ => simp [Values.operands]

theorem run_one_source {op : BitVec 32} {dst : String} (hnew : vals.lookup dst = none)
    (hx : vals.vector x = some va) (hi : decode op = .legal i) (hreads : reads i = [.a]) (b c : Vec n) :
    Line.run ⟨dst, op, [x]⟩ vals = some (vals ++ [(dst, operationFunction op ⟨va, b, c⟩)]) := by
  have hcount : operandCount op ≤ [x].length := by rw [operandCount_legal hi, hreads]; rfl
  rw [run_of_operands hnew hcount (operands_one hx), operationFunction_of_legal hi, operationFunction_of_legal hi,
    operationResult_of_reads_a hreads]

theorem run_two_sources {op : BitVec 32} {dst : String} (hnew : vals.lookup dst = none)
    (hx : vals.vector x = some va) (hy : vals.vector y = some vb) (hi : decode op = .legal i) (hsel : i ≠ .sel)
    (c : Vec n) :
    Line.run ⟨dst, op, [x, y]⟩ vals = some (vals ++ [(dst, operationFunction op ⟨va, vb, c⟩)]) := by
  have hcount : operandCount op ≤ [x, y].length := operandCount_legal hi ▸ reads_length_le_two hsel
  rw [run_of_operands hnew hcount (operands_two hx hy), operationFunction_of_legal hi, operationFunction_of_legal hi,
    operationResult_of_ne_sel hsel]

theorem run_three_sources {op : BitVec 32} {dst : String} (hnew : vals.lookup dst = none)
    (hx : vals.vector x = some va) (hy : vals.vector y = some vb) (hz : vals.vector z = some vc) :
    Line.run ⟨dst, op, [x, y, z]⟩ vals = some (vals ++ [(dst, operationFunction op ⟨va, vb, vc⟩)]) :=
  run_of_operands hnew (operandCount_le op) (operands_three hx hy hz)

/-- A word that does not decode reads no operand, so its line runs with any captured sources (R95). -/
theorem run_malformed (hnew : vals.lookup l.dst = none) (hsrcs : ∀ x ∈ l.srcs, vals.vector x ≠ none)
    (hlen : l.srcs.length ≤ 3) (hcount : operandCount l.op = 0) :
    ∃ o, l.run vals = some (vals ++ [(l.dst, operationFunction l.op o)]) := by
  have hsome : vals.operands l.srcs ≠ none := by
    rw [ne_eq, operands_eq_none_iff]
    exact fun h => h.elim (fun ⟨x, hx, hnone⟩ => hsrcs x hx hnone) hlen.not_gt
  obtain ⟨o, ho⟩ := Option.ne_none_iff_exists'.1 hsome
  exact ⟨o, run_of_operands hnew (hcount ▸ Nat.zero_le _) ho⟩

end ProgramLines

/-- Settles O33: a line runs unless its name is defined, it lists too few sources, or they give no operands; the ports
it does not list carry nothing its operation reads. -/
theorem programLinesUseCapturedValues : Obligations.ProgramLinesUseCapturedValues := by
  rintro n ⟨dst, op, srcs⟩ vals
  refine ⟨fun h => run_eq_none_iff.2 (.inl h), fun x hx hnone => ?_, ?_, ?_, ?_, fun hnew hsrcs hlen => ⟨fun hop => ?_,
    fun hop => ?_⟩, fun i hi hfew => ?_, fun hmany => ?_⟩
  · exact run_eq_none_iff.2 (.inr (.inr (operands_eq_none_iff.2 (.inl ⟨x, hx, hnone⟩))))
  · rintro x y z va vb vc hnew rfl hx hy hz
    exact run_three_sources hnew hx hy hz
  · rintro x va i hnew rfl hx hi hreads b c
    exact run_one_source hnew hx hi hreads b c
  · rintro x y va vb i hnew rfl hx hy hi hsel c
    exact run_two_sources hnew hx hy hi hsel c
  · obtain ⟨o, ho⟩ := run_malformed hnew hsrcs hlen (by simp [operandCount, hop])
    rw [ho, operationFunction_of_illegalOpcode hop]
  · obtain ⟨o, ho⟩ := run_malformed hnew hsrcs hlen (by simp [operandCount, hop])
    rw [ho, operationFunction_of_reservedField hop]
  · exact run_eq_none_iff.2 (.inr (.inl (operandCount_legal hi ▸ hfew)))
  · exact run_eq_none_iff.2 (.inr (.inr (operands_eq_none_iff.2 (.inr hmany))))

/-! ### Pseudo-instructions -/

section Values

variable {n : Nat} {vals : Values n} {name new : String} {r : Result n}

theorem lookup_append_new (h : vals.lookup new = none) : (vals ++ [(new, r)]).lookup new = some r := by
  simp [List.lookup_append, h]

theorem lookup_append_of_ne (hne : name ≠ new) : (vals ++ [(new, r)]).lookup name = vals.lookup name := by
  simp [List.lookup_append, List.lookup_cons, beq_eq_false_iff_ne.2 hne]

/-- A captured value stays as it is when a line adds another. -/
theorem vector_append_of_some {v : Vec n} (h : vals.vector name = some v) (extra : Values n) :
    Values.vector (vals ++ extra) name = some v := by
  obtain ⟨r, hr, rfl⟩ := Option.map_eq_some_iff.1 h
  simp [Values.vector, List.lookup_append, hr]

theorem vector_append_new (h : vals.lookup new = none) : Values.vector (vals ++ [(new, r)]) new = some r.y := by
  simp [Values.vector, lookup_append_new h]

theorem runLines_single (l : Line) : runLines [l] vals = l.run vals := by
  cases h : l.run vals <;> simp [runLines, h]

/-- A line with the word of a well-formed operation adds the operation's result on the sources' values. -/
theorem run_encode {i : Instr} {srcs : List String} {o : Operands n} (hi : i.WellFormed)
    (hnew : vals.lookup new = none) (hcount : (reads i).length ≤ srcs.length) (ho : vals.operands srcs = some o) :
    Line.run ⟨new, encode i, srcs⟩ vals = some (vals ++ [(new, operationResult i o)]) := by
  rw [← operationFunction_of_legal (decode_encode hi) o]
  exact run_of_operands hnew (operandCount_legal (decode_encode hi) ▸ hcount) ho

/-- One such line, run as a program, leaves the operation's result under its name. -/
theorem exists_runLines_encode {i : Instr} {srcs : List String} {o : Operands n} (hi : i.WellFormed)
    (hnew : vals.lookup new = none) (hcount : (reads i).length ≤ srcs.length) (ho : vals.operands srcs = some o) :
    ∃ vals', runLines [⟨new, encode i, srcs⟩] vals = some vals' ∧
      vals'.lookup new = some (operationResult i o) :=
  ⟨_, by rw [runLines_single, run_encode hi hnew hcount ho], lookup_append_new hnew⟩

end Values

/-- A positive exponent shifts left (R87, R88). -/
theorem potLane_natCast {k : Nat} (x : Word) (hk : 1 ≤ k) : potLane k x = shiftUpLane k x := by
  have hpos : (k : Int) > 0 := by omega
  rw [potLane, if_pos hpos, Int.toNat_natCast]

/-- A negative exponent shifts right (R87, R89). -/
theorem potLane_neg_natCast {m : Nat} (x : Word) (hm : 1 ≤ m) : potLane (-m) x = shiftDownLane m x := by
  have hpos : ¬ -(m : Int) > 0 := by omega
  have hzero : -(m : Int) ≠ 0 := by omega
  rw [potLane, if_neg hpos, if_neg hzero, neg_neg, Int.toNat_natCast]

theorem operationResult_or_self {n : Nat} (a c : Vec n) : operationResult .or ⟨a, a, c⟩ = vectorResult a :=
  congrArg vectorResult BitVec.or_self

theorem operationResult_xor_self {n : Nat} (a c : Vec n) : operationResult .xor ⟨a, a, c⟩ = vectorResult 0#_ :=
  congrArg vectorResult BitVec.xor_self

theorem cmpEqLane_self (w : Word) : cmpEqLane w w = onesWord := by simp [cmpEqLane, mask]

theorem operationResult_cmpeq_self {n : Nat} (a c : Vec n) :
    operationResult .cmpeq ⟨a, a, c⟩ = vectorResult (BitVec.allOnes _) :=
  congrArg vectorResult (eq_of_lane_eq fun k hk => by rw [lane_map2 hk, cmpEqLane_self, lane_allOnes hk])

/-- A select between zero and `c` is `c` with the mask's bits cleared (R63). -/
theorem operationResult_sel_zero {n : Nat} (a c : Vec n) :
    operationResult .sel ⟨a, 0#_, c⟩ = vectorResult (c &&& ~~~a) := by
  refine congrArg vectorResult ?_
  rw [BitVec.and_zero, BitVec.zero_or, BitVec.and_comm]

/-- A program of one `POT` line: its result, lane by lane. -/
theorem exists_runLines_pot {n : Nat} {vals : Values n} {dst a : String} {va : Vec n} {e : Int}
    (he : ExponentInRange e) (hnew : vals.lookup dst = none) (ha : vals.vector a = some va) :
    ∃ vals' y, runLines [⟨dst, encode (.pot e), [a]⟩] vals = some vals' ∧ vals'.lookup dst = some ⟨.ok, y, false⟩ ∧
      ∀ i, i < n → lane y i = potLane e (lane va i) := by
  obtain ⟨vals', hrun, hlookup⟩ :=
    exists_runLines_encode (wellFormed_pot.2 he) hnew (srcs := [a]) le_rfl (operands_one ha)
  exact ⟨vals', _, hrun, hlookup, fun i hi => lane_map1 hi⟩

/-- A program of one line with a two-operand operation on `a` twice. -/
theorem exists_runLines_self {n : Nat} {vals : Values n} {dst a : String} {va y : Vec n} {i : Instr}
    (hi : i.WellFormed) (hsel : i ≠ .sel) (hnew : vals.lookup dst = none) (ha : vals.vector a = some va)
    (hy : operationResult i ⟨va, va, 0#_⟩ = vectorResult y) :
    ∃ vals', runLines [⟨dst, encode i, [a, a]⟩] vals = some vals' ∧ vals'.lookup dst = some ⟨.ok, y, false⟩ := by
  obtain ⟨vals', hrun, hlookup⟩ :=
    exists_runLines_encode hi hnew (srcs := [a, a]) (reads_length_le_two hsel) (operands_two ha ha)
  exact ⟨vals', hrun, hlookup.trans (congrArg some hy)⟩

/-- The two lines of `ANDN`: a zero under `z`, then a select with the mask `b` between that zero and `a` (R55). -/
theorem exists_runLines_andn {n : Nat} {vals : Values n} {dst a b z : String} {va vb : Vec n}
    (ha : vals.vector a = some va) (hb : vals.vector b = some vb) (hnew : vals.lookup dst = none)
    (hz : vals.lookup z = none) (hne : dst ≠ z) :
    ∃ vals', runLines (Pseudo.andn.expand dst a b z) vals = some vals' ∧
      vals'.lookup dst = some ⟨.ok, va &&& ~~~vb, false⟩ := by
  have hzero := run_encode (i := .xor) (srcs := [a, a]) rfl hz le_rfl (operands_two ha ha)
  rw [operationResult_xor_self] at hzero
  have hsrcs := operands_three (vector_append_of_some hb _) (vector_append_new (r := vectorResult 0#_) hz)
    (vector_append_of_some ha _)
  obtain ⟨vals', hrun, hlookup⟩ := exists_runLines_encode (i := .sel) (srcs := [b, z, a]) rfl
    ((lookup_append_of_ne hne).trans hnew) le_rfl hsrcs
  refine ⟨vals', ?_, hlookup.trans (congrArg some (operationResult_sel_zero vb va))⟩
  rw [← hrun, Pseudo.expand, runLines, hzero]

/-- Settles O32: `POT` with the exponent's sign for the shifts, `OR`, `XOR` and `CMPEQ` of a value with itself, and a
select on a zero for `ANDN`. -/
theorem pseudoInstructionsAreExact : Obligations.PseudoInstructionsAreExact := by
  intro n p vals dst a b z va vb hp ha hb hdst hz hne
  cases p with
  | qshl k | scaleup k =>
    obtain ⟨hlow, hhigh⟩ : 1 ≤ k ∧ k ≤ 31 := decide_eq_true_iff.1 hp
    obtain ⟨vals', y, hrun, hlookup, hy⟩ := exists_runLines_pot (e := k) (by omega) hdst ha
    exact ⟨vals', y, hrun, hlookup, fun i hi => (hy i hi).trans (potLane_natCast _ hlow)⟩
  | rshr m | scaledown m =>
    obtain ⟨hlow, hhigh⟩ : 1 ≤ m ∧ m ≤ 32 := decide_eq_true_iff.1 hp
    obtain ⟨vals', y, hrun, hlookup, hy⟩ := exists_runLines_pot (e := -m) (by omega) hdst ha
    exact ⟨vals', y, hrun, hlookup, fun i hi => (hy i hi).trans (potLane_neg_natCast _ hlow)⟩
  | mov =>
    obtain ⟨vals', hrun, hlookup⟩ := exists_runLines_self (i := .or) rfl (by decide) hdst ha
      (operationResult_or_self va _)
    exact ⟨vals', _, hrun, hlookup, rfl⟩
  | zero =>
    obtain ⟨vals', hrun, hlookup⟩ := exists_runLines_self (i := .xor) rfl (by decide) hdst ha
      (operationResult_xor_self va _)
    exact ⟨vals', _, hrun, hlookup, rfl⟩
  | ones =>
    obtain ⟨vals', hrun, hlookup⟩ := exists_runLines_self (i := .cmpeq) rfl (by decide) hdst ha
      (operationResult_cmpeq_self va _)
    exact ⟨vals', _, hrun, hlookup, rfl⟩
  | andn =>
    obtain ⟨vals', hrun, hlookup⟩ := exists_runLines_andn ha hb hdst hz hne
    exact ⟨vals', _, hrun, hlookup, rfl⟩

end Sys2Proof.Machine

/-! PROOFS. Family `40_bitwise_select.md`: bitwise logic and the branchless select (R59 to R63). -/

namespace Sys2Proof.Machine

/-! ### Bitwise logic -/

section BitwiseLogic

variable (s : State)

theorem exec_and : exec .and s = .next (s.deliver ⟨.ok, s.pins.inA &&& s.pins.inB, false⟩) := exec_eq .and s

theorem exec_or : exec .or s = .next (s.deliver ⟨.ok, s.pins.inA ||| s.pins.inB, false⟩) := exec_eq .or s

theorem exec_xor : exec .xor s = .next (s.deliver ⟨.ok, s.pins.inA ^^^ s.pins.inB, false⟩) := exec_eq .xor s

theorem exec_not : exec .not s = .next (s.deliver ⟨.ok, ~~~s.pins.inA, false⟩) := exec_eq .not s

end BitwiseLogic

/-- `NOT` exchanges `MIN32` and `MAX32`, and turns a zero lane into `ONES` (R62). -/
theorem lane_not_corners {n i : Nat} (a : Vec n) (hi : i < n) :
    (lane a i = 0x80000000#32 → lane (~~~a) i = 0x7FFFFFFF#32) ∧ (lane a i = 0#32 → lane (~~~a) i = 0xFFFFFFFF#32) := by
  rw [lane_not a hi]
  exact ⟨fun h => by rw [h]; decide, fun h => by rw [h]; decide⟩

/-- Settles O12: each operation delivers its formula, and a corner case is the formula's value there. -/
theorem bitwiseOperationsCompute : Obligations.BitwiseOperationsCompute := by
  refine ⟨by decide, fun s => ⟨exec_and s, exec_or s, exec_xor s, exec_not s, fun h => ?equal, fun h => ?zero,
    fun h => ?ones, _, exec_not s, fun _ hi => lane_not_corners _ hi⟩⟩
  case equal =>
    rw [exec_and, exec_or, exec_xor, h, BitVec.and_self, BitVec.or_self, BitVec.xor_self]
    exact ⟨rfl, rfl, rfl⟩
  case zero =>
    rw [exec_and, exec_or, h, BitVec.and_zero, BitVec.or_zero]
    exact ⟨rfl, rfl⟩
  case ones =>
    rw [exec_and, exec_or, exec_xor, h, BitVec.and_allOnes, BitVec.or_allOnes, BitVec.xor_allOnes]
    exact ⟨rfl, rfl, rfl⟩

/-! ### Select -/

section Select

variable {w n : Nat}

/-- The formula of `SEL` (R63), at any width. -/
def select (a b c : BitVec w) : BitVec w := (a &&& b) ||| (~~~a &&& c)

theorem exec_sel (s : State) :
    exec .sel s = .next (s.deliver ⟨.ok, select s.pins.inA s.pins.inB s.pins.inC, false⟩) := exec_eq .sel s

/-- Bit by bit, the formula is a choice by the bit of `a`. -/
theorem getLsbD_select (a b c : BitVec w) {j : Nat} (hj : j < w) :
    (select a b c).getLsbD j = if a.getLsbD j then b.getLsbD j else c.getLsbD j := by
  simp only [select, BitVec.getLsbD_or, BitVec.getLsbD_and, BitVec.getLsbD_not, hj, decide_true, Bool.true_and]
  cases a.getLsbD j <;> simp

theorem lane_select (a b c : Vec n) {i : Nat} (hi : i < n) :
    lane (select a b c) i = select (lane a i) (lane b i) (lane c i) := by
  simp only [select, lane_or, lane_and, lane_not a hi]

theorem select_allOnes (b c : BitVec w) : select (BitVec.allOnes w) b c = b := by
  simp [select]

theorem select_zero (b c : BitVec w) : select 0#w b c = c := by
  simp [select]

/-- Equal choices leave nothing to select. -/
theorem select_same (a b : BitVec w) : select a b b = b :=
  BitVec.eq_of_getLsbD_eq fun j hj => by rw [getLsbD_select a b b hj, ite_self]

theorem select_self_left (a c : BitVec w) : select a a c = a ||| c :=
  BitVec.eq_of_getLsbD_eq fun j hj => by
    rw [getLsbD_select a a c hj, BitVec.getLsbD_or]
    cases a.getLsbD j <;> rfl

theorem select_self_right (a b : BitVec w) : select a b a = a &&& b :=
  BitVec.eq_of_getLsbD_eq fun j hj => by
    rw [getLsbD_select a b a hj, BitVec.getLsbD_and]
    cases a.getLsbD j <;> rfl

/-- A lane of the mask that is all ones or all zeros selects the whole lane of `b` or of `c`. -/
theorem lane_select_of_mask (a b c : Vec n) {i : Nat} (hi : i < n) :
    (lane a i = 0xFFFFFFFF#32 → lane (select a b c) i = lane b i) ∧
      (lane a i = 0#32 → lane (select a b c) i = lane c i) := by
  rw [lane_select a b c hi]
  exact ⟨fun h => h ▸ select_allOnes _ _, fun h => h ▸ select_zero _ _⟩

end Select

/-- Settles O13: `SEL` delivers its formula, which chooses bit by bit; the lanes and the equal operands follow. -/
theorem selectIsBranchless : Obligations.SelectIsBranchless :=
  ⟨by decide, fun s => ⟨_, exec_sel s, fun _ hj => getLsbD_select _ _ _ hj, fun _ hi => lane_select_of_mask _ _ _ hi,
    fun h => h ▸ select_same _ _, fun h => h ▸ select_self_left _ _, fun h => h ▸ select_self_right _ _⟩⟩

end Sys2Proof.Machine

/-! PROOFS. Family `41_compare_reduce.md`: comparison masks, zero tests and reductions (R64 to R75). -/

namespace Sys2Proof.Machine

/-! ### Masks -/

theorem not_mask (b : Bool) : ~~~mask b = mask (!b) := by cases b <;> decide

theorem mask_eq_onesWord_iff (b : Bool) : mask b = onesWord ↔ b = true := by cases b <;> decide

/-- Among mask lanes, a lane is non-zero exactly when its complement is zero (R16). -/
theorem ne_zeroWord_iff_of_isMaskLane {w : Word} (h : IsMaskLane w) : w ≠ zeroWord ↔ ~~~w = zeroWord := by
  rcases h with rfl | rfl <;> decide

section Vectors

variable {n : Nat} {a b : Vec n}

theorem isMask_map1 {f : Word → Word} (h : ∀ x, IsMaskLane (f x)) : IsMask (map1 f a) := fun i hi => by
  rw [lane_map1 hi]
  exact h _

theorem isMask_map2 {f : Word → Word → Word} (h : ∀ x y, IsMaskLane (f x y)) : IsMask (map2 f a b) := fun i hi => by
  rw [lane_map2 hi]
  exact h _ _

/-- A lane operation that complements another one complements its vector. -/
theorem map2_eq_not {f g : Word → Word → Word} (h : ∀ x y, f x y = ~~~g x y) : map2 f a b = ~~~map2 g a b :=
  eq_of_lane_eq fun i hi => by rw [lane_not _ hi, lane_map2 hi, lane_map2 hi, h]

end Vectors

/-! ### The comparisons of one lane -/

section Lane

variable (x y : Word)

theorem cmpEqLane_eq : cmpEqLane x y = if x = y then onesWord else zeroWord := mask_decide (x = y)

theorem cmpNeLane_eq_mask : cmpNeLane x y = mask (x != y) := not_mask _

theorem cmpNeLane_eq : cmpNeLane x y = if x = y then zeroWord else onesWord := by
  rw [← ite_not, cmpNeLane_eq_mask, ← mask_decide, decide_not]
  rfl

theorem cmpGtLane_eq : cmpGtLane x y = if sint x > sint y then onesWord else zeroWord := mask_decide _

theorem cmpGeLane_eq : cmpGeLane x y = if sint x ≥ sint y then onesWord else zeroWord := mask_decide _

theorem cmpLtLane_eq : cmpLtLane x y = if sint x < sint y then onesWord else zeroWord := mask_decide _

theorem cmpLeLane_eq : cmpLeLane x y = if sint x ≤ sint y then onesWord else zeroWord := mask_decide _

theorem cmpZLane_eq : cmpZLane x = cmpEqLane x zeroWord := rfl

theorem cmpNzLane_eq : cmpNzLane x = cmpNeLane x zeroWord := (cmpNeLane_eq_mask x zeroWord).symm

theorem cmpGeLane_eq_not : cmpGeLane x y = ~~~cmpLtLane x y := by
  rw [cmpGeLane, cmpLtLane, not_mask, ← decide_not, decide_eq_decide.2 not_lt]

theorem cmpLeLane_eq_not : cmpLeLane x y = ~~~cmpGtLane x y := by
  rw [cmpLeLane, cmpGtLane, not_mask, ← decide_not, decide_eq_decide.2 not_lt]

/-- Equal lanes: the strict orders fail and the others hold (R66 to R69). -/
theorem ordering_lanes_self :
    cmpGtLane x x = zeroWord ∧ cmpGeLane x x = onesWord ∧ cmpLtLane x x = zeroWord ∧ cmpLeLane x x = onesWord := by
  simp [cmpGtLane_eq, cmpGeLane_eq, cmpLtLane_eq, cmpLeLane_eq]

/-- Nothing but itself is at or below `MIN32` (R67). -/
theorem cmpGeLane_min32_eq_onesWord_iff : cmpGeLane min32 y = onesWord ↔ y = min32 := by
  rw [cmpGeLane, mask_eq_onesWord_iff, decide_eq_true_iff]
  refine ⟨fun h => sint_injective (le_antisymm h ?_), fun h => h ▸ le_rfl⟩
  exact sint_min32 ▸ sint_ge y

/-- Everything is at or below `MAX32` (R69). -/
theorem cmpLeLane_max32 : cmpLeLane x max32 = onesWord := by
  rw [cmpLeLane_eq, if_pos (sint_max32 ▸ sint_le x)]

end Lane

/-! ### The comparisons of vectors -/

section Compare

variable {n : Nat} (a b c : Vec n)

/-- `CMPZ` is `CMPEQ` against a broadcast zero (R70). -/
theorem map1_cmpZLane : map1 cmpZLane a = map2 cmpEqLane a 0#_ :=
  eq_of_lane_eq fun i hi => by rw [lane_map1 hi, lane_map2 hi, lane_zero, cmpZLane_eq]; rfl

/-- `CMPNZ` is `CMPNE` against a broadcast zero (R71). -/
theorem map1_cmpNzLane : map1 cmpNzLane a = map2 cmpNeLane a 0#_ :=
  eq_of_lane_eq fun i hi => by rw [lane_map1 hi, lane_map2 hi, lane_zero, cmpNzLane_eq]; rfl

theorem map2_cmpNeLane : map2 cmpNeLane a b = ~~~map2 cmpEqLane a b := map2_eq_not fun _ _ => rfl

theorem map2_cmpEqLane_self : map2 cmpEqLane a a = BitVec.allOnes _ :=
  congrArg Result.y (operationResult_cmpeq_self a 0#_)

/-- The comparisons give masks (R75, item 1). -/
theorem isMask_comparison : ∀ i ∈ [Instr.cmpeq, .cmpne, .cmpgt, .cmpge, .cmplt, .cmple, .cmpz, .cmpnz],
    IsMask (operationResult i ⟨a, b, c⟩).y := by
  simp only [List.forall_mem_cons]
  refine ⟨isMask_map2 ?eq, isMask_map2 ?ne, isMask_map2 ?gt, isMask_map2 ?ge, isMask_map2 ?lt, isMask_map2 ?le,
    isMask_map1 ?z, isMask_map1 ?nz, by simp⟩
  case ne => exact fun x y => cmpNeLane_eq_mask x y ▸ mask_isMaskLane _
  all_goals intros; exact mask_isMaskLane _

/-- In a lane exactly one of `CMPLT`, `CMPEQ` and `CMPGT` is all ones, because integers are totally ordered and lanes
with the same integer are equal (R75, item 4). -/
theorem exactly_one_comparison {k : Nat} (hk : k < n) :
    ([Instr.cmplt, .cmpeq, .cmpgt].filter fun i =>
      lane (operationResult i ⟨a, b, c⟩).y k == onesWord).length = 1 := by
  have hlt : lane (operationResult .cmplt ⟨a, b, c⟩).y k = _ := (lane_map2 hk).trans (cmpLtLane_eq _ _)
  have heq : lane (operationResult .cmpeq ⟨a, b, c⟩).y k = _ := (lane_map2 hk).trans (cmpEqLane_eq _ _)
  have hgt : lane (operationResult .cmpgt ⟨a, b, c⟩).y k = _ := (lane_map2 hk).trans (cmpGtLane_eq _ _)
  have hinj : lane a k = lane b k ↔ sint (lane a k) = sint (lane b k) := ⟨congrArg sint, sint_injective⟩
  have hzero : (zeroWord == onesWord) = false := by decide
  rcases lt_trichotomy (sint (lane a k)) (sint (lane b k)) with h | h | h
  · simp [List.filter, hlt, heq, hgt, hinj, hzero, h, h.ne, h.not_gt]
  · simp [List.filter, hlt, heq, hgt, hinj, hzero, h]
  · simp [List.filter, hlt, heq, hgt, hinj, hzero, h, h.ne', h.not_gt]

end Compare

/-! ### The reductions -/

/-- A reduction's `Y` is all ones or all zeros, by its boolean (R74). -/
theorem booleanResult_eq {n : Nat} (t : Bool) :
    (booleanResult t : Result n) = ⟨.ok, if t then BitVec.allOnes _ else 0#_, t⟩ := by
  cases t
  · exact congrArg (Result.mk .ok · false) (bcast_zeroWord n)
  · exact congrArg (Result.mk .ok · true) (bcast_onesWord n)

/-- For a mask, `ALL` is true exactly when `ANY` of the complement is false (R75, item 5). -/
theorem allLanesNonZero_iff_of_isMask {n : Nat} {a : Vec n} (ha : IsMask a) :
    allLanesNonZero a = true ↔ anyLaneNonZero (~~~a) = false := by
  rw [allLanesNonZero_iff, ← Bool.not_eq_true, anyLaneNonZero_iff]
  push Not
  refine forall₂_congr fun i hi => ?_
  rw [lane_not a hi]
  exact ne_zeroWord_iff_of_isMaskLane (ha i hi)

/-- A reduction delivers its boolean, and the boolean's broadcast mask as a vector (R74). -/
theorem exec_booleanResult {i : Instr} {s : State} {t : Bool} (h : operationResult i s.operands = booleanResult t) :
    exec i s = .next (s.deliver ⟨.ok, if t then BitVec.allOnes 128 else 0#128, t⟩) := by
  rw [exec_eq, h, booleanResult_eq]
  rfl

/-! ### The obligations -/

/-- Settles O14: each lane is the mask of the lanes' equality or its complement. -/
theorem equalityMasks : Obligations.EqualityMasks := by
  refine ⟨by decide, by decide, fun s => ⟨map2 cmpEqLane s.pins.inA s.pins.inB, map2 cmpNeLane s.pins.inA s.pins.inB,
    exec_eq .cmpeq s, exec_eq .cmpne s, map2_cmpNeLane _ _, fun i hi => ?lanes, fun h => ?equal⟩⟩
  case lanes =>
    rw [lane_map2 hi, lane_map2 hi]
    exact ⟨cmpEqLane_eq _ _, cmpNeLane_eq _ _⟩
  case equal =>
    rw [map2_cmpNeLane, h, map2_cmpEqLane_self]
    exact ⟨rfl, BitVec.not_allOnes⟩

/-- Settles O15: each lane is the mask of the comparison of the lanes' integers, and a corner case is that comparison's
value there. -/
theorem orderingMasksAreSigned : Obligations.OrderingMasksAreSigned := by
  refine ⟨by decide, by decide, by decide, by decide, fun s =>
    ⟨map2 cmpGtLane s.pins.inA s.pins.inB, map2 cmpGeLane s.pins.inA s.pins.inB, map2 cmpLtLane s.pins.inA s.pins.inB,
      map2 cmpLeLane s.pins.inA s.pins.inB, exec_eq .cmpgt s, exec_eq .cmpge s, exec_eq .cmplt s, exec_eq .cmple s,
      fun i hi => ?_⟩⟩
  simp only [lane_map2 hi]
  refine ⟨cmpGtLane_eq _ _, cmpGeLane_eq _ _, cmpLtLane_eq _ _, cmpLeLane_eq _ _, fun h => h ▸ ordering_lanes_self _,
    fun ha hb => ?_, fun ha hb => ?_, fun ha => by rw [ha]; exact cmpGeLane_min32_eq_onesWord_iff _, fun ha hb => ?_,
    fun hb => hb ▸ cmpLeLane_max32 _⟩
  all_goals rw [ha, hb]; decide

/-- Settles O16: the zero tests are the equality tests against a zero vector, so their lanes and their complement are
those of the equality masks. -/
theorem zeroTestMasks : Obligations.ZeroTestMasks := by
  refine ⟨by decide, by decide, fun s => ⟨map1 cmpZLane s.pins.inA, map1 cmpNzLane s.pins.inA, exec_eq .cmpz s,
    exec_eq .cmpnz s, fun i hi => ?lanes, ?complement,
    fun n a b c => ⟨congrArg vectorResult (map1_cmpZLane a), congrArg vectorResult (map1_cmpNzLane a)⟩⟩⟩
  case lanes =>
    rw [lane_map1 hi, lane_map1 hi]
    exact ⟨cmpEqLane_eq _ _, (cmpNzLane_eq _).trans (cmpNeLane_eq _ _), fun h => h ▸ by decide⟩
  case complement => rw [map1_cmpZLane, map1_cmpNzLane, map2_cmpNeLane]

/-- Settles O17: the two reductions as statements about every lane, and their results as vectors. -/
theorem reductionsTestEveryLane : Obligations.ReductionsTestEveryLane := by
  refine ⟨by decide, by decide, fun o => ?_, fun s => ⟨_, _, exec_booleanResult (i := .all) rfl,
    exec_booleanResult (i := .any) rfl, allLanesNonZero_iff _, anyLaneNonZero_iff _⟩⟩
  refine (allLanesNonZero_iff o.a).trans ⟨fun h => h 0 Nat.one_pos, fun h i hi => ?_⟩
  rwa [Nat.lt_one_iff.1 hi]

/-- Settles O18: items 1 to 5 of R75, each from the law of one lane. -/
theorem maskLaws : Obligations.MaskLaws := fun _ a b c =>
  ⟨isMask_comparison a b c, map2_cmpNeLane a b, map2_eq_not cmpGeLane_eq_not, map2_eq_not cmpLeLane_eq_not, rfl, rfl,
    fun _ hk => exactly_one_comparison a b c hk, allLanesNonZero_iff_of_isMask⟩

end Sys2Proof.Machine

/-! PROOFS. Family `42_arith.md`: modular, rounding and saturating arithmetic (R76 to R86). -/

namespace Sys2Proof.Machine

/-! ### Lane-wise operations with swapped and with equal operands -/

section Vectors

variable {n : Nat} {f : Word → Word → Word} {a b : Vec n}

theorem map2_comm (h : ∀ x y, f x y = f y x) : map2 f a b = map2 f b a :=
  eq_of_lane_eq fun i hi => by rw [lane_map2 hi, lane_map2 hi, h]

theorem map2_self_eq_zero (h : ∀ x, f x x = 0#32) : map2 f a a = 0#_ :=
  eq_of_lane_eq fun i hi => by rw [lane_map2 hi, h, lane_zero]

theorem map2_self_eq_self (h : ∀ x, f x x = x) : map2 f a a = a :=
  eq_of_lane_eq fun i hi => by rw [lane_map2 hi, h]

end Vectors

/-! ### Clamping -/

section Clamp

variable {n : Int}

theorem clamp_eq (n : Int) : clamp n = min (max n (-2147483648)) 2147483647 := by
  norm_num [clamp]

theorem bits32_clamp_of_gt (h : n > 2147483647) : bits32 (clamp n) = 0x7FFFFFFF#32 := by
  have hmax : clamp n = 2147483647 := by rw [clamp_eq]; omega
  rw [hmax]
  decide

theorem bits32_clamp_of_lt (h : n < -2147483648) : bits32 (clamp n) = 0x80000000#32 := by
  have hmin : clamp n = -2147483648 := by rw [clamp_eq]; omega
  rw [hmin]
  decide

theorem clamp_of_mem (hlow : -2147483648 ≤ n) (hhigh : n ≤ 2147483647) : clamp n = n := by
  rw [clamp_eq]
  omega

/-- A saturated result whose exact integer is in range is that integer. -/
theorem sint_bits32_clamp_of_mem (hlow : -2147483648 ≤ n) (hhigh : n ≤ 2147483647) : sint (bits32 (clamp n)) = n := by
  rw [sint_bits32_clamp, clamp_of_mem hlow hhigh]

end Clamp

/-! ### Arithmetic of one lane -/

section Lane

variable (x y : Word)

theorem sint_zero : sint 0#32 = 0 := by decide

theorem neg_lt_sint_of_ne_min32 {x : Word} (h : x ≠ min32) : -2 ^ 31 < sint x :=
  lt_of_le_of_ne (sint_ge x) fun heq => h (sint_injective (sint_min32.trans heq).symm)

/-- Wrapping a sum of integers is unsigned addition modulo `2^32` (R76). -/
theorem addLane_eq : addLane x y = x + y := by
  rw [addLane, bits32, BitVec.ofInt_add]
  exact congrArg₂ (· + ·) (bits32_sint x) (bits32_sint y)

theorem addLane_comm : addLane x y = addLane y x := by rw [addLane, addLane, add_comm]

theorem subLane_self : subLane x x = 0#32 := by rw [subLane, sub_self]; decide

/-- Only the negation of `MIN32` leaves the range, so elsewhere clamping it changes nothing (R83). -/
theorem negLane_eq_qnegLane {x : Word} (h : x ≠ min32) : negLane x = qnegLane x := by
  have hlow := neg_lt_sint_of_ne_min32 h
  have hhigh := sint_le x
  rw [negLane, qnegLane, clamp_of_mem (by omega) (by omega)]

/-- Twice the rounded half-sum is the sum, or the sum plus one (R79). -/
theorem two_mul_sint_rhaddLane :
    2 * sint (rhaddLane x y) = sint x + sint y ∨ 2 * sint (rhaddLane x y) = sint x + sint y + 1 := by
  rw [sint_rhaddLane]
  omega

theorem rhaddLane_self : rhaddLane x x = x :=
  sint_injective (by rw [sint_rhaddLane]; omega)

theorem rhaddLane_comm : rhaddLane x y = rhaddLane y x := by
  rw [rhaddLane, rhaddLane, add_comm (sint x)]

theorem qaddLane_comm : qaddLane x y = qaddLane y x := by rw [qaddLane, qaddLane, add_comm]

/-- A sum in range is not clamped, and `ADD` gives it too (R81). -/
theorem qaddLane_eq_add {x y : Word} (hlow : -2147483648 ≤ sint x + sint y) (hhigh : sint x + sint y ≤ 2147483647) :
    qaddLane x y = x + y := by
  rw [← addLane_eq, qaddLane, clamp_of_mem hlow hhigh, addLane]

theorem qsubLane_self : qsubLane x x = 0#32 := by rw [qsubLane, sub_self]; decide

end Lane

/-! ### The rounded multiply-high of one lane -/

section MultiplyHigh

variable {x y : Word}

/-- The saturation corner of `QRDMULH` (R80). -/
theorem qrdmulhLane_min32 : qrdmulhLane min32 min32 = max32 := if_pos ⟨rfl, rfl⟩

theorem qrdmulhLane_comm (x y : Word) : qrdmulhLane x y = qrdmulhLane y x := by
  simp only [qrdmulhLane, and_comm (a := x = min32), mul_right_comm 2 (sint x)]

/-- Outside the corner the result is the floor of the rounded quotient (R80). -/
theorem qrdmulhLane_bounds (h : ¬ (x = min32 ∧ y = min32)) :
    2 ^ 32 * sint (qrdmulhLane x y) ≤ 2 * sint x * sint y + 2 ^ 31 ∧
      2 * sint x * sint y + 2 ^ 31 < 2 ^ 32 * (sint (qrdmulhLane x y) + 1) := by
  rw [(sint_qrdmulhLane h).1]
  omega

theorem qrdmulhLane_ne_min32 (x y : Word) : qrdmulhLane x y ≠ min32 := by
  by_cases h : x = min32 ∧ y = min32
  · obtain ⟨rfl, rfl⟩ := h
    rw [qrdmulhLane_min32]
    decide
  · intro heq
    have hlt := (sint_qrdmulhLane h).2
    rw [heq, sint_min32] at hlt
    exact lt_irrefl _ hlt

/-- A product that is not negative has a result that is not negative: the corner's product is one, and its result is
`MAX32` (R85). -/
theorem qrdmulhLane_nonneg (h : 0 ≤ sint x * sint y) : 0 ≤ sint (qrdmulhLane x y) := by
  by_cases hcorner : x = min32 ∧ y = min32
  · obtain ⟨rfl, rfl⟩ := hcorner
    rw [qrdmulhLane_min32]
    decide
  · have hhigh := (qrdmulhLane_bounds hcorner).2
    rw [mul_assoc] at hhigh
    omega

/-- A product that is not positive is outside the corner, and its result is not positive: half a unit is not enough to
reach the next integer (R85). -/
theorem qrdmulhLane_nonpos (h : sint x * sint y ≤ 0) : sint (qrdmulhLane x y) ≤ 0 := by
  have hcorner : ¬ (x = min32 ∧ y = min32) := by
    rintro ⟨rfl, rfl⟩
    exact absurd h (by decide)
  have hlow := (qrdmulhLane_bounds hcorner).1
  rw [mul_assoc] at hlow
  omega

theorem qrdmulhLane_eq_zero (h : sint x * sint y = 0) : qrdmulhLane x y = 0#32 :=
  sint_injective (le_antisymm (qrdmulhLane_nonpos h.le) (qrdmulhLane_nonneg h.ge))

theorem qrdmulhLane_zero_left (y : Word) : qrdmulhLane 0#32 y = 0#32 :=
  qrdmulhLane_eq_zero (by rw [sint_zero, zero_mul])

theorem qrdmulhLane_zero_right (x : Word) : qrdmulhLane x 0#32 = 0#32 :=
  qrdmulhLane_eq_zero (by rw [sint_zero, mul_zero])

theorem lane_operationResult_qrdmulh {n i : Nat} (o : Operands n) (hi : i < n) :
    lane (operationResult .qrdmulh o).y i = qrdmulhLane (lane o.a i) (lane o.b i) := lane_map2 hi

end MultiplyHigh

/-! ### The obligations -/

/-- Settles O19: each lane is the sum modulo `2^32`, read as an integer or as an unsigned word. -/
theorem addWraps : Obligations.AddWraps := by
  refine ⟨by decide, fun s => ⟨map2 addLane s.pins.inA s.pins.inB, exec_eq .add s, fun i hi => ?_,
    fun o => congrArg vectorResult (map2_comm addLane_comm)⟩⟩
  rw [lane_map2 hi]
  refine ⟨sint_bits32_emod _, ?unsigned, fun ha hb => ?_, fun ha hb => ?_⟩
  case unsigned => rw [addLane_eq, BitVec.toNat_add]
  all_goals rw [ha, hb]; decide

/-- Settles O20: each lane is the difference modulo `2^32`. -/
theorem subWraps : Obligations.SubWraps := by
  refine ⟨by decide, fun s => ⟨map2 subLane s.pins.inA s.pins.inB, exec_eq .sub s, fun i hi => ?_,
    fun h => h ▸ map2_self_eq_zero subLane_self⟩⟩
  rw [lane_map2 hi]
  refine ⟨sint_bits32_emod _, fun ha hb => ?_, fun ha hb => ?_, fun ha hb => ?_⟩
  all_goals rw [ha, hb]; decide

/-- Settles O21: the two negations of a lane reduce one integer, which is out of range for `MIN32` alone. -/
theorem negateWrapsAndSaturates : Obligations.NegateWrapsAndSaturates := by
  refine ⟨by decide, by decide, fun s => ⟨map1 negLane s.pins.inA, map1 qnegLane s.pins.inA, exec_eq .neg s,
    exec_eq .qneg s, fun i hi => ?_⟩⟩
  rw [lane_map1 hi, lane_map1 hi]
  refine ⟨sint_bits32_emod _, (sint_bits32_clamp _).trans (clamp_eq _), fun ha => ?_, negLane_eq_qnegLane, fun ha => ?_,
    fun ha => ?_⟩
  all_goals rw [ha]; decide

/-- Settles O22: the half-sum of each lane is exact up to its rounding. -/
theorem halfSumRoundsUp : Obligations.HalfSumRoundsUp := by
  refine ⟨by decide, fun s => ⟨map2 rhaddLane s.pins.inA s.pins.inB, exec_eq .rhadd s, fun i hi => ?_,
    fun o => congrArg vectorResult (map2_comm rhaddLane_comm)⟩⟩
  rw [lane_map2 hi]
  refine ⟨two_mul_sint_rhaddLane _ _, fun h => h ▸ rhaddLane_self _, fun ha hb => ?_, fun ha hb => ?_, fun ha hb => ?_⟩
  all_goals rw [ha, hb]; decide

/-- Settles O23: the bounds of a floor outside the corner; a corner case is the lane function's value there. -/
theorem multiplyHighRounds : Obligations.MultiplyHighRounds := by
  refine ⟨by decide, fun s => ⟨map2 qrdmulhLane s.pins.inA s.pins.inB, exec_eq .qrdmulh s, fun i hi => ?_,
    fun o => congrArg vectorResult (map2_comm qrdmulhLane_comm)⟩⟩
  rw [lane_map2 hi]
  refine ⟨fun ha hb => ?_, qrdmulhLane_bounds, qrdmulhLane_ne_min32 _ _, fun ha hb => ?_, fun ha hb => ?_,
    fun ha hb => ?_, fun hb => by rw [hb, qrdmulhLane_zero_right], fun ha hb => ?_, fun ha hb => ?_, fun ha hb => ?_⟩
  all_goals rw [ha, hb]; decide

/-- Settles O24: the three ranges of the exact sum. -/
theorem addSaturates : Obligations.AddSaturates := by
  refine ⟨by decide, fun s => ⟨map2 qaddLane s.pins.inA s.pins.inB, exec_eq .qadd s, fun i hi => ?_,
    fun o => congrArg vectorResult (map2_comm qaddLane_comm)⟩⟩
  rw [lane_map2 hi]
  exact ⟨bits32_clamp_of_gt, bits32_clamp_of_lt,
    fun hlow hhigh => ⟨sint_bits32_clamp_of_mem hlow hhigh, qaddLane_eq_add hlow hhigh⟩⟩

/-- Settles O25: the three ranges of the exact difference; a corner case is the lane function's value there. -/
theorem subSaturates : Obligations.SubSaturates := by
  refine ⟨by decide, fun s => ⟨map2 qsubLane s.pins.inA s.pins.inB, exec_eq .qsub s, fun i hi => ?_,
    fun h => h ▸ map2_self_eq_zero qsubLane_self⟩⟩
  rw [lane_map2 hi]
  refine ⟨bits32_clamp_of_gt, bits32_clamp_of_lt, sint_bits32_clamp_of_mem, fun ha hb => ?_, fun ha hb => ?_,
    fun ha hb => ?_⟩
  all_goals rw [ha, hb]; decide

/-- Settles O26: the result's sign is that of the exact product, which follows the operands' signs. -/
theorem multiplyHighSigns : Obligations.MultiplyHighSigns := by
  intro n o i hi
  rw [lane_operationResult_qrdmulh o hi]
  refine ⟨fun ha hb => qrdmulhLane_nonneg (mul_nonneg ha hb),
    fun ha hb => qrdmulhLane_nonneg (mul_nonneg_of_nonpos_of_nonpos ha hb),
    fun ha hb => qrdmulhLane_nonpos (mul_nonpos_of_nonneg_of_nonpos ha hb),
    fun ha hb => qrdmulhLane_nonpos (mul_nonpos_of_nonpos_of_nonneg ha hb), ?_⟩
  rintro (ha | hb)
  · rw [ha, qrdmulhLane_zero_left]
  · rw [hb, qrdmulhLane_zero_right]

/-- Settles O27: the sum of a lane with itself is its double, and its square is not negative. -/
theorem repeatedOperands : Obligations.RepeatedOperands := by
  refine fun n a c => ⟨congrArg vectorResult (map2_self_eq_zero subLane_self),
    congrArg vectorResult (map2_self_eq_zero qsubLane_self), congrArg vectorResult (map2_self_eq_self rhaddLane_self),
    fun i hi => ⟨?add, ?qadd, ?qrdmulh⟩⟩
  case add =>
    rw [two_mul]
    exact lane_map2 hi
  case qadd =>
    rw [two_mul, ← clamp_eq]
    exact (congrArg sint (lane_map2 hi)).trans (sint_bits32_clamp _)
  case qrdmulh =>
    rw [lane_operationResult_qrdmulh _ hi]
    exact qrdmulhLane_nonneg (mul_self_nonneg _)

end Sys2Proof.Machine

/-! PROOFS. Family `43_scaling.md`: power-of-two scaling (R87 to R90). -/

namespace Sys2Proof.Machine

/-! ### The word and the vector of `POT` -/

/-- The exponent's field above the `OPC` shares no bit with it, so the sum of the two is their union (R53, R87). -/
theorem encode_pot_eq_or (e : Int) :
    encode (.pot e) = 0x00000030#32 ||| BitVec.ofNat 32 ((e % 64).toNat * 256) := by
  have hword : ∀ k < 64, BitVec.ofNat 32 (k * 256 + 0x30) = 0x00000030#32 ||| BitVec.ofNat 32 (k * 256) := by decide
  rw [encode_pot]
  exact hword _ (by omega)

theorem potLane_zero (x : Word) : potLane 0 x = x := rfl

/-- `POT #0` is the identity on every vector (R90). -/
theorem map1_potLane_zero {n : Nat} (a : Vec n) : map1 (potLane 0) a = a :=
  eq_of_lane_eq fun i hi => by rw [lane_map1 hi, potLane_zero]

theorem operationResult_pot_zero {n : Nat} (o : Operands n) : operationResult (.pot 0) o = vectorResult o.a :=
  congrArg vectorResult (map1_potLane_zero o.a)

/-! ### The saturating left shift of one lane -/

section ShiftUp

theorem bits32_clamp_of_le {n : Int} (h : n ≤ -2147483648) : bits32 (clamp n) = 0x80000000#32 := by
  rcases h.lt_or_eq with hlt | rfl
  · exact bits32_clamp_of_lt hlt
  · decide

variable {x : Word}

/-- `-1` shifted by 31 is `MIN32` exactly, and a smaller lane is clamped to it (R88). -/
theorem shiftUpLane_31_of_neg (h : sint x < 0) : shiftUpLane 31 x = 0x80000000#32 :=
  bits32_clamp_of_le (by omega)

theorem shiftUpLane_31_of_pos (h : 0 < sint x) : shiftUpLane 31 x = 0x7FFFFFFF#32 :=
  bits32_clamp_of_gt (by omega)

end ShiftUp

/-! ### The rounding right shift of one lane -/

section ShiftDown

variable {n : Nat} (x : Word)

/-- The result is the floor of the exact sum's quotient (R89). -/
theorem shiftDownLane_bounds (hn : 1 ≤ n) :
    2 ^ n * sint (shiftDownLane n x) ≤ sint x + 2 ^ (n - 1) ∧
      sint x + 2 ^ (n - 1) < 2 ^ n * (sint (shiftDownLane n x) + 1) := by
  have hpos : (0 : Int) < 2 ^ n := by positivity
  rw [sint_shiftDownLane hn, mul_add, mul_one]
  exact ⟨Int.mul_ediv_self_le hpos.ne', Int.lt_mul_ediv_self_add hpos⟩

/-- The bias is less than one unit of the result and the lane is within `2^(31-n)` such units of 0, so the floor stays
within that many (R89). -/
theorem shiftDownLane_range (hn : 1 ≤ n) (h : n ≤ 31) :
    -2 ^ (31 - n) ≤ sint (shiftDownLane n x) ∧ sint (shiftDownLane n x) ≤ 2 ^ (31 - n) := by
  obtain ⟨hfloor, hceil⟩ := shiftDownLane_bounds x hn
  have hlow := sint_ge x
  have hhigh := sint_le x
  have hunit : (2 : Int) ^ n * 2 ^ (31 - n) = 2 ^ 31 := pow_mul_pow_sub 2 h
  have hbias : (2 : Int) * 2 ^ (n - 1) = 2 ^ n := mul_pow_sub_one (by omega) 2
  have hpos : (0 : Int) < 2 ^ (n - 1) := by positivity
  have hbelow : (2 : Int) ^ n * -2 ^ (31 - n) < 2 ^ n * (sint (shiftDownLane n x) + 1) := by linarith
  have habove : (2 : Int) ^ n * sint (shiftDownLane n x) < 2 ^ n * (2 ^ (31 - n) + 1) := by linarith
  exact ⟨Int.lt_add_one_iff.1 (lt_of_mul_lt_mul_left hbelow (by positivity)),
    Int.lt_add_one_iff.1 (lt_of_mul_lt_mul_left habove (by positivity))⟩

/-- The bias of `2^31` brings every lane into `[0, 2^32)`, whose quotient by `2^32` is 0 (R89). -/
theorem shiftDownLane_32 : shiftDownLane 32 x = 0#32 := by
  have hlow := sint_ge x
  have hhigh := sint_le x
  refine sint_injective ?_
  rw [sint_shiftDownLane (by decide), sint_zero]
  omega

end ShiftDown

/-! ### The obligations -/

/-- Settles O28: the exact product's three ranges are those of the clamp, and `POT #0` copies every lane. -/
theorem potScalesUpSaturating : Obligations.PotScalesUpSaturating := by
  refine ⟨fun e _ _ => encode_pot_eq_or e, fun s => ?zero, fun s e hlow _ =>
    ⟨map1 (potLane e) s.pins.inA, exec_eq (.pot e) s, fun i hi => ?up⟩⟩
  case zero =>
    rw [exec_eq, operationResult_pot_zero]
    rfl
  case up =>
    obtain ⟨k, rfl⟩ := Int.eq_ofNat_of_zero_le (by omega : 0 ≤ e)
    rw [lane_map1 hi, potLane_natCast _ (by omega), Int.toNat_natCast]
    refine ⟨bits32_clamp_of_gt, bits32_clamp_of_lt, sint_bits32_clamp_of_mem, fun he => ?_, fun he => ?_⟩ <;>
      obtain rfl : k = 31 := by omega
    · exact shiftUpLane_31_of_neg
    · exact shiftUpLane_31_of_pos

/-- Settles O29: the bounds of a floor, and the range they leave; a tie is the lane function's value there. -/
theorem potScalesDownRounding : Obligations.PotScalesDownRounding := by
  refine fun s n hn _ => ⟨map1 (potLane (-n)) s.pins.inA, exec_eq (.pot (-n)) s, fun i hi => ?_⟩
  rw [lane_map1 hi, potLane_neg_natCast _ hn]
  obtain ⟨hfloor, hceil⟩ := shiftDownLane_bounds (lane s.pins.inA i) hn
  refine ⟨hfloor, hceil, shiftDownLane_range _ hn, fun h => h ▸ shiftDownLane_32 _, fun h ha => ?_, fun h ha => ?_⟩
  all_goals rw [h, ha]; decide

end Sys2Proof.Machine

/-! PROOFS. Family `44_broadcast.md`: broadcast (R91, R92). -/

namespace Sys2Proof.Machine

/-- One lane is the whole vector, so `DUP` is the identity on it (R92). -/
theorem bcast_lane_zero (a : Vec 1) : bcast (lane a 0) = a :=
  eq_of_lane_eq fun i hi => by rw [lane_bcast hi, Nat.lt_one_iff.1 hi]

/-- No lane of all ones is zero, however many lanes there are (R72). -/
theorem allLanesNonZero_allOnes (n : Nat) : allLanesNonZero (BitVec.allOnes _ : Vec n) = true :=
  (allLanesNonZero_iff _).2 fun i hi => by
    rw [lane_allOnes hi]
    decide

/-- Settles O30: a broadcast vector's lanes are its word, and a vector compared with itself is all ones. -/
theorem dupBroadcastsLaneZero : Obligations.DupBroadcastsLaneZero := by
  refine ⟨by decide, fun s => ⟨bcast (lane s.pins.inA 0), exec_eq .dup s, fun _ hi => lane_bcast hi⟩,
    fun o => bcast_lane_zero o.a, fun n o c => ⟨congrArg Result.y (operationResult_cmpeq_self _ c), ?all⟩⟩
  case all =>
    rw [operationResult_cmpeq_self]
    exact allLanesNonZero_allOnes n

end Sys2Proof.Machine

/-! PROOFS. Family `60_exceptions.md`: completion with a status (R93 to R95), and that the unit never stops and drains
(R97, R106). -/

namespace Sys2Proof.Machine

/-! ### Every edge answers -/

theorem exists_clockEdge (lat : Nat) (s : State) : ∃ t, clockEdge lat s = .next t := by
  rcases clockEdge_cases lat s with ⟨-, h⟩ | ⟨-, -, h⟩ | ⟨-, -, h⟩ <;> exact ⟨_, h⟩

theorem exists_runEdges (lat k : Nat) (s : State) : ∃ t, runEdges lat k s = .next t := by
  induction k generalizing s with
  | zero => exact ⟨s, rfl⟩
  | succ k ih =>
    obtain ⟨t, ht⟩ := exists_clockEdge lat s
    rw [runEdges_succ ht]
    exact ih t

theorem core_run_succ {M : Host.Core} {k : Nat} {s t : M.State} (h : M.step s = .next t) :
    M.run (k + 1) s = M.run k t := by
  simp [Host.Core.run, h]

/-- The host's run of the model is a run of edges at the unit's own `LATENCY`. -/
theorem core_run_eq_runEdges (k : Nat) (s : State) : Sys2Proof.core.run k s = runEdges Config.latency k s := by
  induction k generalizing s with
  | zero => rfl
  | succ k ih =>
    obtain ⟨t, ht⟩ := exists_clockEdge Config.latency s
    rw [runEdges_succ ht, ← ih t]
    exact core_run_succ (M := Sys2Proof.core) ht

/-- Settles O48: each case of an edge answers a next state, hence so does every run of edges. -/
theorem unitNeverStops : Obligations.UnitNeverStops :=
  ⟨exists_runEdges, exists_clockEdge Config.latency, fun k s =>
    (exists_runEdges Config.latency k s).imp fun _ h => (core_run_eq_runEdges k s).trans h⟩

/-! ### The status on the port -/

/-- No status has the reserved code (R93). -/
theorem code_ne_reserved (s : Status) : s.code ≠ 0b11#2 := by cases s <;> decide

theorem code_eq_zero_iff (s : Status) : s.code = 0b00#2 ↔ s = .ok := by cases s <;> decide

/-- Settles O47: a valid cycle presents the newest result of the trace, which is proper. -/
theorem presentedStatusIsNeverReserved : Obligations.PresentedStatusIsNeverReserved := by
  intro lat s hinv hseen hvalid
  obtain ⟨r, hlast, hy, ht, hstatus⟩ := hinv.presented hseen hvalid
  obtain ⟨hfailed, htrue⟩ := hinv.traceProper r (List.mem_of_getLast? hlast)
  rw [bcast_zeroWord] at hfailed
  rw [bcast_onesWord] at htrue
  simp only [hy, ht, hstatus, ne_eq, code_eq_zero_iff]
  exact ⟨code_ne_reserved r.s, hfailed, htrue⟩

/-! ### Draining -/

theorem accepts_of_not_offered {s : State} (h : s.pins.inValid = false) : s.accepts = false := by
  simp [State.accepts, h]

/-- Presenting puts nothing into the pipeline. -/
theorem mem_of_mem_present {lat : Nat} {s : State} {e : Entry} (h : e ∈ (s.present lat).pipeline) :
    e ∈ s.pipeline := by
  rcases present_cases lat s with ⟨-, hs⟩ | ⟨f, rest, hp, -, hs⟩
  · simpa [hs] using h
  · rw [hs, State.driveResult_pipeline] at h
    rw [hp]
    exact List.mem_cons_of_mem f h

/-- What is in flight after an edge with no reset and no offer was in flight before it, one edge younger. -/
theorem mem_pipeline_of_quiet_edge {lat : Nat} {s : State} {e : Entry} (hoffer : s.pins.inValid = false)
    (h : e ∈ (s.taken.finishEdge lat).pipeline) : ∃ f ∈ s.pipeline, e = f.older := by
  rw [State.finishEdge_pipeline] at h
  have hold := mem_of_mem_present h
  rw [taken_of_not_accepts (accepts_of_not_offered hoffer), State.tick_pipeline] at hold
  obtain ⟨f, hf, rfl⟩ := List.mem_map.1 hold
  exact ⟨f, hf, rfl⟩

/-- When every operation in flight falls due within `k` edges, `k` edges with no reset and no offer present them all, by
induction on `k`: after the last of them one still in flight would be overdue. -/
theorem runEdges_drains {lat k : Nat} {s : State} (hinv : UnitInv lat s) (hseen : s.resetSeen = true)
    (hr : NoReset (s.drives k)) (ho : NoOffer (s.drives k)) (hdue : ∀ e ∈ s.pipeline, lat ≤ e.age + k) :
    ∃ t, runEdges lat k s = .next t ∧ t.pipeline = [] ∧ t.trace = s.trace ++ s.pending := by
  induction k generalizing s with
  | zero =>
    have hempty : s.pipeline = [] := List.eq_nil_iff_forall_not_mem.2 fun e he =>
      absurd (hinv.inOrder.2 e he) (hdue e he).not_gt
    exact ⟨s, rfl, hempty, by simp [State.pending, hempty]⟩
  | succ k ih =>
    obtain ⟨hedge, hseen', hr'⟩ := clockEdge_of_noReset lat hseen hr
    obtain ⟨hoffer, hrest⟩ := noOffer_drives_succ ho
    have hdue' : ∀ e ∈ (s.taken.finishEdge lat).pipeline, lat ≤ e.age + k := by
      intro e he
      obtain ⟨f, hf, rfl⟩ := mem_pipeline_of_quiet_edge hoffer he
      have := hdue f hf
      simp only [Entry.older]
      omega
    obtain ⟨t, ht, hempty, htrace⟩ := ih (hinv.taken_finishEdge hseen) hseen' hr'
      (noOffer_after (by simp) (by simp) hrest) hdue'
    refine ⟨t, (runEdges_succ hedge).trans ht, hempty, ?_⟩
    rw [htrace, taken_finishEdge_results, accepts_of_not_offered hoffer]
    simp

/-- Settles O49: everything in flight falls due within `LATENCY` edges. -/
theorem pipelineDrainsInLatency : Obligations.PipelineDrainsInLatency :=
  fun lat _ hinv hseen hr ho => runEdges_drains hinv hseen hr ho fun e _ => Nat.le_add_left lat e.age

end Sys2Proof.Machine

/-! PROOFS. Family `70_reset_and_hazards.md`: reset and power-up (R107 to R112), and the time-free view (R118). -/

namespace Sys2Proof.Machine

/-! ### What a reset discards -/

/-- No edge takes back a result it has presented. -/
theorem trace_prefix_clockEdge {lat : Nat} {s t : State} (h : clockEdge lat s = .next t) : s.trace <+: t.trace := by
  rcases clockEdge_cases lat s with ⟨-, he⟩ | ⟨-, -, he⟩ | ⟨-, -, he⟩ <;>
    obtain rfl := Host.Outcome.next.inj (he.symm.trans h)
  · rw [State.resetEdge_trace]
  · rw [State.powerUpEdge_trace]
  · rcases finishEdge_outputs lat s.taken with ⟨-, ht⟩ | ⟨r, hr⟩
    · rw [ht, taken_trace]
    · rw [hr.trace, taken_trace]
      exact List.prefix_append _ _

theorem trace_prefix_runEdges {lat k : Nat} {s t : State} (h : runEdges lat k s = .next t) : s.trace <+: t.trace := by
  induction k generalizing s with
  | zero =>
    obtain rfl := Host.Outcome.next.inj h
    exact List.prefix_rfl
  | succ k ih =>
    obtain ⟨u, hu⟩ := exists_clockEdge lat s
    rw [runEdges_succ hu] at h
    exact (trace_prefix_clockEdge hu).trans (ih h)

/-- An edge moves the host's list on by one: the level listed at place `n` is then sampled `n` edges later. -/
theorem levels_after {s t : State} {n : Nat} {p : Pins} (hp : t.pins = s.host.headD s.pins.withdrawn)
    (hh : t.host = s.host.tail) (h : s.host[n]? = some p) : (t.pins :: t.host)[n]? = some p := by
  rw [hp, hh]
  cases hs : s.host with
  | nil => simp [hs] at h
  | cons q rest => rwa [hs] at h

namespace InFlight

variable {r : Result Config.lanes} {earlier : List (Result Config.lanes)} {age lat : Nat} {s : State}

/-- While `r` waits, what has been presented is the first of the earlier results. -/
theorem trace_prefix (h : InFlight r earlier age s) : s.trace <+: earlier := by
  obtain ⟨older, younger, -, rfl⟩ := h
  exact List.prefix_append _ _

/-- A reset that comes before the operation falls due discards it, by induction on the edges before the reset, each of
which leaves the operation in flight. -/
theorem runEdges_of_reset {n : Nat} {p : Pins} (h : InFlight r earlier age s) (hn : age + n < lat)
    (hseen : s.resetSeen = true) (hr : NoReset (s.drives n)) (hp : (s.pins :: s.host)[n]? = some p)
    (hrst : p.rst = true) :
    ∃ t, Machine.runEdges lat (n + 1) s = .next t ∧ t.pipeline = [] ∧ t.outValid = false ∧
      t.trace <+: earlier := by
  induction n generalizing s age with
  | zero =>
    obtain rfl : s.pins = p := by simpa using hp
    exact ⟨_, runEdges_succ (clockEdge_of_reset hrst), State.resetEdge_pipeline s, State.resetEdge_outValid s,
      (State.resetEdge_trace s).symm ▸ h.trace_prefix⟩
  | succ n ih =>
    obtain ⟨hedge, hseen', hr'⟩ := clockEdge_of_noReset lat hseen hr
    have hnext : InFlight r earlier (age + 1) (s.taken.finishEdge lat) := h.taken.finishEdge (by omega)
    rw [runEdges_succ hedge]
    exact ih hnext (by omega) hseen' hr' (levels_after (by simp) (by simp) hp)

end InFlight

/-- With `LATENCY = 0` no age is small enough for an operation to be in flight. -/
theorem UnitInv.pipeline_eq_nil {s : State} (h : UnitInv 0 s) : s.pipeline = [] :=
  List.eq_nil_iff_forall_not_mem.2 fun e he => absurd (h.inOrder.2 e he) (Nat.not_lt_zero _)

/-- Settles O42: the operation is in flight until the reset, so what has been presented then lies between the old trace
and all that was accepted before it. -/
theorem resetDiscardsOperationsInFlight : Obligations.ResetDiscardsOperationsInFlight := by
  refine ⟨?_, fun s hinv => ?_⟩
  · intro lat s j p _ ha hj hr hp hrst
    obtain ⟨hseen, hrst0, -, -⟩ := (accepts_iff s).1 ha
    obtain ⟨hedge, hseen', hr'⟩ :=
      clockEdge_of_noReset (k := j) lat hseen (List.forall_mem_cons.2 ⟨hrst0, hr⟩)
    have hflight : InFlight _ (s.trace ++ s.pending) 0 (s.taken.finishEdge lat) :=
      (inFlight_of_accepts ha).finishEdge (by omega)
    obtain ⟨t, ht, hempty, hvalid, hle⟩ :=
      hflight.runEdges_of_reset (lat := lat) (n := j) (by omega) hseen' hr' (levels_after (by simp) (by simp) hp) hrst
    rw [← runEdges_succ hedge] at ht
    obtain ⟨new, hnew⟩ := trace_prefix_runEdges ht
    rw [← hnew, List.prefix_append_right_inj, List.prefix_iff_eq_take] at hle
    exact ⟨t, new.length, ht, hempty, hvalid, by rw [← hle, hnew]⟩
  · obtain ⟨t, ht⟩ := exists_clockEdge 0 s
    exact ⟨t, ht, (hinv.clockEdge ht).pipeline_eq_nil⟩

/-! ### The time-free view -/

/-- The view's steps in two parts: the second takes up the FIFO the first leaves. -/
theorem runView_append {first second : List ViewStep} {p q r : Fifo} {e e' : List (Result Config.lanes)}
    (h : runView first p = some (q, e)) (h' : runView second q = some (r, e')) :
    runView (first ++ second) p = some (r, e ++ e') := by
  induction first generalizing p e with
  | nil =>
    obtain ⟨rfl, rfl⟩ : p = q ∧ [] = e := by simpa [runView] using h
    exact h'
  | cons a rest ih =>
    simp only [runView] at h
    split at h
    · cases h
    · next m out ha =>
      split at h
      · cases h
      · next final later hrest =>
        obtain ⟨rfl, rfl⟩ : final = q ∧ out ++ later = e := by simpa using h
        simp [runView, ha, ih hrest]

/-- What an edge with no reset accepts is at most one `accept` of the view. -/
theorem runView_accept (s : State) :
    runView (if s.accepts then [.accept s.pins.inOp s.operands] else []) s.pending = some (s.taken.pending, []) := by
  rw [taken_pending]
  split <;> simp [runView, ViewStep.run]

/-- What an edge presents is one `present` of the view, or no step of it. -/
theorem exists_runView_present (lat : Nat) (s : State) : ∃ p emitted, (p = [] ∨ p = [.present]) ∧
    runView p s.pending = some ((s.present lat).pending, emitted) ∧ (s.present lat).trace = s.trace ++ emitted := by
  rcases present_cases lat s with ⟨-, h⟩ | ⟨e, rest, hp, -, h⟩ <;> rw [h]
  · exact ⟨[], [], .inl rfl, rfl, by simp⟩
  · exact ⟨[.present], [e.result], .inr rfl, by simp [State.pending, hp, runView, ViewStep.run], rfl⟩

theorem accepts_of_not_resetSeen {s : State} (h : s.resetSeen = false) : s.accepts = false := by
  simp [State.accepts, h]

/-- Settles O50, by the three cases of an edge: `reset`; no step; `accept` as the handshake says, then `present` as an
operation is due. -/
theorem timeFreeViewAdmitsEveryEdge : Obligations.TimeFreeViewAdmitsEveryEdge := by
  refine ⟨rfl, fun lat s => ?_⟩
  rcases clockEdge_cases lat s with ⟨hr, he⟩ | ⟨hr, hseen, he⟩ | ⟨hr, -, he⟩
  · exact ⟨_, [.reset], [], he, by simp [runView, ViewStep.run], by simp, fun _ => rfl, by simp [hr]⟩
  · exact ⟨_, [], [], he, by simp [runView], by simp, by simp [hr],
      fun _ => ⟨[], .inl rfl, by simp [accepts_of_not_resetSeen hseen]⟩⟩
  · obtain ⟨p, emitted, hp, hview, htrace⟩ := exists_runView_present lat s.taken
    refine ⟨_, _, emitted, he, ?_, ?_, by simp [hr], fun _ => ⟨p, hp, rfl⟩⟩
    · rw [State.finishEdge_pending]
      exact runView_append (runView_accept s) hview
    · rw [State.finishEdge_trace, htrace, taken_trace]

/-! ### Out of reset -/

/-- The unit is ready, with nothing in flight and nothing presented (R110). -/
structure Quiescent (s : State) : Prop where
  resetSeen : s.resetSeen = true
  inReady : s.inReady = true
  pipeline : s.pipeline = []
  outValid : s.outValid = false

/-- An edge with no reset that accepts nothing leaves an empty unit ready and silent. -/
theorem quiescent_finishEdge (lat : Nat) {s : State} (hseen : s.resetSeen = true) (hempty : s.pipeline = [])
    (ha : s.accepts = false) :
    Quiescent (s.taken.finishEdge lat) ∧ (s.taken.finishEdge lat).trace = s.trace := by
  have hpresent : s.taken.present lat = s.taken.driveUnspecified false :=
    present_of_not_due (by simp [taken_pipeline, hempty, ha])
  exact ⟨⟨by simpa using hseen, by simp, by simp [hpresent, taken_pipeline, hempty, ha], by simp [hpresent]⟩,
    by simp [hpresent]⟩

theorem Quiescent.runEdges {lat k : Nat} {s : State} (h : Quiescent s) (hr : NoReset (s.drives k))
    (ho : NoOffer (s.drives k)) : ∃ t, Machine.runEdges lat k s = .next t ∧ Quiescent t := by
  induction k generalizing s with
  | zero => exact ⟨s, rfl, h⟩
  | succ k ih =>
    obtain ⟨hedge, -, hr'⟩ := clockEdge_of_noReset lat h.resetSeen hr
    obtain ⟨hoffer, hrest⟩ := noOffer_drives_succ ho
    rw [runEdges_succ hedge]
    exact ih (quiescent_finishEdge lat h.resetSeen h.pipeline (accepts_of_not_offered hoffer)).1 hr'
      (noOffer_after (by simp) (by simp) hrest)

/-- A unit in reset is not ready, so it accepts nothing at the edge that leaves reset (R112). -/
theorem accepts_resetEdge (s : State) : s.resetEdge.accepts = false := by
  simp [State.accepts]

/-- The edge after a reset edge, when it samples `rst` 0. -/
theorem clockEdge_resetEdge (lat : Nat) {s : State} {p : Pins} {rest : List Pins} (hh : s.host = p :: rest)
    (hp : p.rst = false) : clockEdge lat s.resetEdge = .next (s.resetEdge.taken.finishEdge lat) :=
  clockEdge_of_running (State.resetEdge_resetSeen s) (by simp [hh, hp])

/-- Settles O43: the reset edge empties the unit, the next one finds it not ready and makes it so, and an empty unit to
which nothing is offered stays silent. -/
theorem bootReachesTheResetState : Obligations.BootReachesTheResetState := by
  intro lat s p rest k hrst hh hp hr ho
  have htwo : runEdges lat 2 s = .next (s.resetEdge.taken.finishEdge lat) :=
    (runEdges_succ (clockEdge_of_reset hrst)).trans (runEdges_succ (clockEdge_resetEdge lat hh hp))
  obtain ⟨hquiet, htrace⟩ :=
    quiescent_finishEdge lat (State.resetEdge_resetSeen s) (State.resetEdge_pipeline s) (accepts_resetEdge s)
  obtain ⟨u, hu, hu'⟩ := hquiet.runEdges (lat := lat) (k := k)
    (noReset_after (s := s.resetEdge) (by simp) (by simp) (by simpa [hh] using hr))
    (noOffer_after (s := s.resetEdge) (by simp) (by simp) (by simpa [hh] using ho))
  have hboth : ∀ q ∈ [s.resetEdge.taken.finishEdge lat, u], Quiescent q :=
    List.forall_mem_cons.2 ⟨hquiet, List.forall_mem_singleton.2 hu'⟩
  exact ⟨_, u, htwo, hquiet.inReady, hquiet.pipeline, hquiet.outValid, hquiet.resetSeen,
    htrace.trans (State.resetEdge_trace s), by simp [hh], by simp [hh], hu,
    fun q hq => ⟨(hboth q hq).outValid, (hboth q hq).pipeline, (hboth q hq).inReady⟩⟩

/-! ### The reset edge and power-up -/

/-- R108: the three outputs that a reset leaves unspecified carry the free values at the counter. -/
@[simp] theorem State.resetEdge_outY (s : State) : s.resetEdge.outY = Config.freeY s.freeIndex := by
  simp [resetEdge, driveUnspecified]

@[simp] theorem State.resetEdge_outT (s : State) : s.resetEdge.outT = Config.freeT s.freeIndex := by
  simp [resetEdge, driveUnspecified]

@[simp] theorem State.resetEdge_outStatus (s : State) : s.resetEdge.outStatus = Config.freeStatus s.freeIndex := by
  simp [resetEdge, driveUnspecified]

theorem accepts_of_reset {s : State} (h : s.pins.rst = true) : s.accepts = false := by
  simp [State.accepts, h]

/-- Settles O41: the edge is `resetEdge`. -/
theorem resetEdgeSilencesTheUnit : Obligations.ResetEdgeSilencesTheUnit := fun _ s hr =>
  ⟨accepts_of_reset hr, s.resetEdge, clockEdge_of_reset hr, s.resetEdge_inReady, s.resetEdge_outValid,
    s.resetEdge_pipeline, s.resetEdge_trace, s.resetEdge_resetSeen, s.resetEdge_outY, s.resetEdge_outT,
    s.resetEdge_outStatus⟩

/-- Settles O44: the edge is `powerUpEdge`. -/
theorem powerUpNeedsAReset : Obligations.PowerUpNeedsAReset := fun _ s hseen hr =>
  ⟨accepts_of_not_resetSeen hseen, s.powerUpEdge, clockEdge_of_powerUp hseen hr,
    s.powerUpEdge_resetSeen.trans hseen, s.powerUpEdge_pipeline, s.powerUpEdge_trace⟩

/-- A unit with nothing in flight or recorded meets the invariant when it presents nothing, or is not yet reset. -/
theorem unitInv_of_empty (lat : Nat) {s : State} (hp : s.pipeline = []) (ht : s.trace = [])
    (hv : s.resetSeen = true → s.outValid = false) : UnitInv lat s where
  inOrder := by simp [PipelineInOrder, hp]
  pendingProper := by simp [hp]
  traceProper := by simp [ht]
  inReset hseen _ := ⟨hp, hv hseen⟩
  poweredUp _ := ⟨hp, ht⟩
  presented hseen hvalid := absurd hvalid (by simp [hv hseen])

/-- Settles O45: both states are empty, and nothing is presented after reset. -/
theorem resetMeetsTheInvariant : Obligations.ResetMeetsTheInvariant :=
  ⟨fun lat => unitInv_of_empty lat rfl rfl fun _ => rfl,
    fun lat => unitInv_of_empty lat rfl rfl (by simp [State.powerUp]), rfl, rfl, rfl, rfl, rfl⟩

end Sys2Proof.Machine
